-- ==== Sys2Proof/Word.lean ====
section
/-! DEFINITION. The byte, the one data width of the SCCA-8 core, and the register index. -/

namespace Sys2Proof

/-- The one width of the machine: a register, a memory cell, an operand, an opcode, an address
(00_scope.md R4, R6: `XLEN = 8`, `PC_WIDTH = 8`; 20_memory.md R42). Always unsigned. -/
abbrev Byte := BitVec 8

/-- The index of a general register, 0 to 7 (00_scope.md R4: `NREG = 8`; 10_state.md R11). -/
abbrev RegIndex := Fin 8

end Sys2Proof
end

