-- ==== Sys2Proof/Config.lean ====
section
/-! DEFINITION. The parameters an implementation fixes (00_scope.md R5). There is no free value:
the spec leaves no result open. The default values are in Machine/Defaults.lean. -/

namespace Sys2Proof

/-- The flags register `FL`: three bits, not packed (10_state.md R18, R20). -/
structure Flags where
  /-- `FL.E`, equal. -/
  e : Bool
  /-- `FL.L`, less than. -/
  l : Bool
  /-- `FL.G`, greater than. -/
  g : Bool
  deriving DecidableEq, Repr

/-- What CMP compares (`CMP_SOURCE`, 00_scope.md R5, 42_alu.md R119). -/
inductive CmpSource where
  /-- The memory cells addressed by the operand bytes: the described machine, the default. -/
  | memAtOperand
  /-- The registers named by the operand bytes: the corrected machine. -/
  | reg
  deriving DecidableEq, Repr

/-- The open parameters of 00_scope.md R5. -/
structure Config where
  /-- `SP_RESET`: what R7 holds after reset (10_state.md R30). -/
  spReset : Byte
  /-- `FL_RESET`: what the flags hold after reset (10_state.md R18). -/
  flReset : Flags
  /-- `CMP_SOURCE`: what CMP compares (42_alu.md R118). -/
  cmpSource : CmpSource
  /-- `STACK_FLOOR`: the lowest address a push may write, 0 to 255 (43_stack.md R131). -/
  stackFloor : Byte
  deriving DecidableEq, Repr

end Sys2Proof
end

