-- ==== Sys2Proof/Machine/Defaults.lean ====
section
/-! DEFINITION. The values the spec gives the fixed and the open parameters (00_scope.md R4, R5)
and the registers at reset (10_state.md R30). -/

namespace Sys2Proof.Machine

/-- `MEM_SIZE`: the number of memory cells, addresses 0 to 255 (00_scope.md R4). -/
def memSize : Nat := 256

/-- `SP_INDEX`: register 7 is the stack pointer (00_scope.md R4, 10_state.md R12). -/
def spIndex : RegIndex := 7

/-- `PC_RESET` (00_scope.md R4, 10_state.md R30). -/
def pcReset : Byte := 0#8

/-- The default of each open parameter (00_scope.md R5; 92_eei_decisions.md D5, D6, D8, D15).
UNVERIFIED by the source: the spec's own defaults, log 2 to 5. -/
def defaultConfig : Config where
  spReset := 0xF3#8
  flReset := ⟨false, false, false⟩
  cmpSource := .memAtOperand
  stackFloor := 0#8

/-- The register file after reset: R0 to R6 zero, R7 = `SP_RESET`
(10_state.md R30, 90_conflicts.md C1). -/
def resetRegs (c : Config) : Vector Byte 8 :=
  #v[0#8, 0#8, 0#8, 0#8, 0#8, 0#8, 0#8, c.spReset]

end Sys2Proof.Machine
end

