-- ==== Sys2Proof/Machine/State.lean ====
section
/-! DEFINITION. The state of the machine, why a step may stop, and the state after reset. -/

namespace Sys2Proof.Machine

/-- Memory: the cells that do not hold 0, each with its address, addresses strictly rising
(10_state.md R25, 20_memory.md R40). `Memory.wf` is this form; an unlisted cell reads
`Memory.unlisted`. -/
abbrev Memory := List Host.Cell

/-- `CAUSE`: why the machine halted (10_state.md R23). `Cause.code` gives the codes; the reserved
codes 6 and 7 are no value of this type. -/
inductive Cause where
  /-- Code 0, `NONE`: not halted. -/
  | none
  /-- Code 1, `HLT`: normal termination (40_engine_cycle.md R90). -/
  | hlt
  /-- Code 2, `INVALID_OPCODE` (60_exceptions.md R161). -/
  | invalidOpcode
  /-- Code 3, `MEM_ADDR_RANGE` (60_exceptions.md R162). -/
  | memAddrRange
  /-- Code 4, `REG_INDEX_RANGE` (60_exceptions.md R163). -/
  | regIndexRange
  /-- Code 5, `SP_RANGE` (60_exceptions.md R164). -/
  | spRange
  deriving DecidableEq, Repr

/-- The whole state of the machine (10_state.md R10). -/
structure State where
  /-- The configuration of the machine (00_scope.md R5), constant: no step changes it. It is
  configuration and no state of the spec's (10_state.md R10). DESIGN CHOICE, log 1. -/
  cfg : Config
  /-- `M`, the memory (10_state.md R25). -/
  mem : Memory
  /-- `x[0..7]`, the general registers; `x[7]` is the stack pointer (10_state.md R11, R12). -/
  regs : Vector Byte 8
  /-- `pc`, the program counter (10_state.md R15). -/
  pc : Byte
  /-- `FL`, the flags (10_state.md R18). -/
  flags : Flags
  /-- `RUN`: running (true) or halted (false) (10_state.md R22). -/
  run : Bool
  /-- `CAUSE` (10_state.md R23). -/
  cause : Cause
  /-- `HALT_PC` (10_state.md R24). -/
  haltPc : Byte
  /-- `HALT_OP` (10_state.md R24). -/
  haltOp : Byte
  /-- `OUT`, the bytes emitted so far, oldest first (10_state.md R27). -/
  out : List Byte
  deriving DecidableEq, Repr

/-- The reasons a step may stop with no next state: there are none. Every fault of the spec is an
entry to the halted state that the spec describes (60_exceptions.md R166), so the model takes it as
a next state (log 6), and a halted machine stays as it is (40_engine_cycle.md R91, log 7). -/
inductive Fault where
  deriving DecidableEq, Repr

/-- The reasons a step may be refused. -/
inductive Refusal where
  /-- An instruction with no meaning yet, by its mnemonic. Raised by `exec`'s arms only, and by none
  of them now. Safe: nothing is proved of a run past it. -/
  | notModelled (mnemonic : String)
  deriving DecidableEq, Repr

/-- What an instruction or a step answers. -/
abbrev Result := Host.Outcome State Fault Refusal

/-- The state right after reset of a machine with the given parameters
(10_state.md R30, 70_reset_and_hazards.md R190). -/
def State.resetWith (c : Config) : State where
  cfg := c
  mem := []
  regs := resetRegs c
  pc := pcReset
  flags := c.flReset
  run := true
  cause := .none
  haltPc := 0#8
  haltOp := 0#8
  out := []

/-- The machine right after reset, with the default parameters (10_state.md R30). -/
def State.reset : State := State.resetWith defaultConfig

end Sys2Proof.Machine
end

