-- ==== Sys2Proof/Machine/Ops.lean ====
section
/-! DEFINITION. The named operations over memory and registers, halting, and fault entry. -/

namespace Sys2Proof.Machine

/-! ## Memory -/

/-- What an unlisted cell reads as: memory is zero-filled at reset (10_state.md R25, R30). -/
def Memory.unlisted : Byte := 0#8

/-- `MemRead` on the list of cells (20_memory.md R40). -/
def Memory.read : Memory → Nat → Byte
  | [], _ => Memory.unlisted
  | (k, v) :: rest, a => if k = a then v else Memory.read rest a

/-- A cell put before the cells that follow it, unless it holds what an unlisted cell reads as. -/
def Memory.cons (a : Nat) (v : Byte) (rest : Memory) : Memory :=
  if v = Memory.unlisted then rest else (a, v) :: rest

/-- `MemWrite` on the list of cells; it keeps the canonical form (20_memory.md R40). -/
def Memory.write : Memory → Nat → Byte → Memory
  | [], a, v => Memory.cons a v []
  | (k, w) :: rest, a, v =>
    if a < k then Memory.cons a v ((k, w) :: rest)
    else if a = k then Memory.cons a v rest
    else (k, w) :: Memory.write rest a v

/-- The canonical form of cells at `lo` and above: addresses strictly rising and below `memSize`,
no cell that holds what an unlisted cell reads as. -/
def Memory.wfFrom : Nat → Memory → Bool
  | _, [] => true
  | lo, (k, v) :: rest =>
    decide (lo ≤ k) && decide (k < memSize) && v != Memory.unlisted && Memory.wfFrom (k + 1) rest

/-- The canonical form of a memory. -/
def Memory.wf (m : Memory) : Bool := Memory.wfFrom 0 m

/-- `MemRead(a, 1)`: the byte at address `a`; no side effect (00_scope.md R7, 20_memory.md R40). -/
def State.memRead (s : State) (a : Byte) : Byte := s.mem.read a.toNat

/-- `MemWrite(a, 1, v)`: stores byte `v` at address `a` (00_scope.md R7, 20_memory.md R40). -/
def State.memWrite (s : State) (a v : Byte) : State := { s with mem := s.mem.write a.toNat v }

/-- The byte at an address that may lie past the end of memory, where there is none
(20_memory.md R41). -/
def State.byteAt (s : State) (n : Nat) : Option Byte :=
  if n < memSize then some (s.mem.read n) else none

/-! ## Registers, program counter, flags, output -/

/-- `x[i]`, read (00_scope.md R7). -/
def State.reg (s : State) (i : RegIndex) : Byte := s.regs[i]

/-- `x[i] <- v` (00_scope.md R7). -/
def State.setReg (s : State) (i : RegIndex) (v : Byte) : State :=
  { s with regs := s.regs.set i.val v i.isLt }

/-- `SP`, another name of `x[7]` (10_state.md R12). -/
def State.sp (s : State) : Byte := s.reg spIndex

/-- `SP <- v`: a write of `x[7]` (10_state.md R12). -/
def State.setSp (s : State) (v : Byte) : State := s.setReg spIndex v

/-- `pc <- t` (00_scope.md R7). -/
def State.setPc (s : State) (t : Byte) : State := { s with pc := t }

/-- `FL` written, all three flags (10_state.md R19). -/
def State.setFlags (s : State) (f : Flags) : State := { s with flags := f }

/-- `Emit(v)`: appends byte `v` to the output log; never blocks, never fails (10_state.md R28). -/
def State.emit (s : State) (v : Byte) : State := { s with out := s.out ++ [v] }

/-! ## Halting and faults -/

/-- The codes of `CAUSE` (10_state.md R23). -/
def Cause.code : Cause → BitVec 3
  | .none => 0#3
  | .hlt => 1#3
  | .invalidOpcode => 2#3
  | .memAddrRange => 3#3
  | .regIndexRange => 4#3
  | .spRange => 5#3

/-- The transition to halted, the same for HLT and for every fault: `RUN <- 0; CAUSE <- c;
HALT_PC <- pc; HALT_OP <- op`, and nothing else (40_engine_cycle.md R90, 60_exceptions.md R166). -/
def State.halt (s : State) (c : Cause) (op : Byte) : State :=
  { s with run := false, cause := c, haltPc := s.pc, haltOp := op }

/-- Taking an exception: `raise` of any fault (60_exceptions.md R166, 40_engine_cycle.md R91).
`op` is the opcode byte of the faulting instruction, `MemRead(pc, 1)` (10_state.md R24; log 8).
There is no return from a fault: nothing but reset leaves the halted state (R168). -/
def State.raise (s : State) (c : Cause) : State := s.halt c (s.memRead s.pc)

/-- What an instruction does to the state before the cycle: the state it leaves, or the first fault
its tests raise. All tests come before all writes (40_engine_cycle.md R85). -/
abbrev Effect := Except Cause State

/-- The end of an instruction: its writes happen in full, or the fault is taken in the state before
the cycle, with no other effect (40_engine_cycle.md R85, 60_exceptions.md R166). -/
def commit (s : State) : Effect → Result
  | .ok t => .next t
  | .error c => .next (s.raise c)

end Sys2Proof.Machine
end

