-- ==== Sys2Proof/Machine/Flags.lean ====
section
/-! DEFINITION. The ALU: its three operations and the flags a compare computes. -/

namespace Sys2Proof.Machine

/-- ALU operation `ADD`: `(u + v) mod 256`. No instruction selects it (42_alu.md R111). -/
def aluAdd (u v : Byte) : Byte := BitVec.ofNat 8 ((u.toNat + v.toNat) % 256)

/-- ALU operation `MUL`: the low byte of the unsigned product (42_alu.md R112). -/
def aluMul (u v : Byte) : Byte := BitVec.ofNat 8 ((u.toNat * v.toNat) % 256)

/-- ALU operation `CMP`: `E = (u == v)`, `L = (u < v)`, `G = (u > v)`, unsigned, the first operand
the subject (42_alu.md R113). -/
def aluCmp (u v : Byte) : Flags where
  e := decide (u.toNat = v.toNat)
  l := decide (u.toNat < v.toNat)
  g := decide (v.toNat < u.toNat)

/-- The operation selector of the ALU, a closed set of three values (42_alu.md R110, R114). -/
inductive AluOp where
  | add | mul | cmp
  deriving DecidableEq, Repr

/-- What the ALU gives back: a value (ADD, MUL) or the flags (CMP) (42_alu.md R110). -/
inductive AluResult where
  | value (v : Byte)
  | flags (f : Flags)
  deriving DecidableEq, Repr

/-- The ALU: a pure function of a selector and two bytes (42_alu.md R110). -/
def alu : AluOp → Byte → Byte → AluResult
  | .add, u, v => .value (aluAdd u v)
  | .mul, u, v => .value (aluMul u v)
  | .cmp, u, v => .flags (aluCmp u v)

/-- The flags in a byte where a display wants one: bit 0 E, bit 1 G, bit 2 L, bits 7:3 zero
(10_state.md R20). No instruction and no trace shows it. PRESUMED, log 15. -/
def packFlags (f : Flags) : Byte :=
  BitVec.ofNat 8 (f.e.toNat + 2 * f.g.toNat + 4 * f.l.toNat)

end Sys2Proof.Machine
end

