-- ==== Sys2Proof/Machine/Operands.lean ====
section
/-! DEFINITION. Every operand form and every address an instruction computes. -/

namespace Sys2Proof.Machine

/-- A register operand byte: 0 to 7 names a register, 8 or more raises `REG_INDEX_RANGE`; it is not
reduced modulo 8 (10_state.md R14, 30_encoding.md R62). -/
def regOperand (a : Byte) : Except Cause RegIndex :=
  if h : a.toNat < 8 then .ok ⟨a.toNat, h⟩ else .error .regIndexRange

/-- An address computed over the integers: it is the byte when it lies in `lo` to 255, and else the
fault `c`. Address arithmetic never wraps (42_alu.md R117, 20_memory.md R41). -/
def addressIn (lo : Nat) (c : Cause) (n : Int) : Except Cause Byte :=
  if (lo : Int) ≤ n ∧ n ≤ 255 then .ok (BitVec.ofInt 8 n) else .error c

/-- `pc + n`, the next-instruction or return address: above 255 it raises `MEM_ADDR_RANGE`
(10_state.md R17, 60_exceptions.md R162). -/
def State.pcPlus (s : State) (n : Nat) : Except Cause Byte :=
  addressIn 0 .memAddrRange ((s.pc.toNat : Int) + n)

/-- The stack pointer a push leaves, `SP - 1`: below `STACK_FLOOR` it raises `SP_RANGE`
(43_stack.md R131). -/
def State.pushedSp (s : State) : Except Cause Byte :=
  addressIn s.cfg.stackFloor.toNat .spRange ((s.sp.toNat : Int) - 1)

/-- The stack pointer a pop leaves, `SP + 1`: above 255 it raises `SP_RANGE`
(43_stack.md R131). -/
def State.poppedSp (s : State) : Except Cause Byte :=
  addressIn 0 .spRange ((s.sp.toNat : Int) + 1)

/-- The two values CMP compares: the bytes at the addresses `a` and `b`, every byte an address, or
the registers they name, both tested, `a` first (42_alu.md R118). -/
def State.comparands (s : State) (a b : Byte) : Except Cause (Byte × Byte) :=
  match s.cfg.cmpSource with
  | .memAtOperand => .ok (s.memRead a, s.memRead b)
  | .reg => do
    let ra ← regOperand a
    let rb ← regOperand b
    return (s.reg ra, s.reg rb)

end Sys2Proof.Machine
end

