-- ==== Sys2Proof/Machine/Arithmetic.lean ====
section
/-! DEFINITION. Meanings of MUL and CMP (42_alu.md). -/

namespace Sys2Proof.Machine

/-- MUL ra, rb: `x[a] <- (x[a] * x[b]) mod 256`, no flag (42_alu.md R115). -/
def execMul (a b : Byte) (s : State) : Result := commit s do
  let ra ← regOperand a
  let rb ← regOperand b
  let next ← s.pcPlus 3
  return (s.setReg ra (aluMul (s.reg ra) (s.reg rb))).setPc next

/-- CMP a, b: all three flags from the two values `CMP_SOURCE` selects (42_alu.md R118). -/
def execCmp (a b : Byte) (s : State) : Result := commit s do
  let (u, v) ← s.comparands a b
  let next ← s.pcPlus 3
  return (s.setFlags (aluCmp u v)).setPc next

end Sys2Proof.Machine
end

