-- ==== Sys2Proof/Machine/Branch.lean ====
section
/-! DEFINITION. Meanings of JMP, JEQ and JNE (44_branch.md). -/

namespace Sys2Proof.Machine

/-- A jump to the address in register `a` when `taken`, else on to `pc + 2`. The index is tested
either way, the next address only when it is needed (44_branch.md R150, R152). -/
def jumpIf (taken : Bool) (a : Byte) (s : State) : Result := commit s do
  let r ← regOperand a
  if taken then
    return s.setPc (s.reg r)
  else
    let next ← s.pcPlus 2
    return s.setPc next

/-- JMP r: `pc <- x[a]` (44_branch.md R151). -/
def execJmp (a : Byte) (s : State) : Result := jumpIf true a s

/-- JEQ r: jumps when `FL.E` is 1 (44_branch.md R152). -/
def execJeq (a : Byte) (s : State) : Result := jumpIf s.flags.e a s

/-- JNE r: jumps when `FL.E` is 0 (44_branch.md R153). -/
def execJne (a : Byte) (s : State) : Result := jumpIf (!s.flags.e) a s

end Sys2Proof.Machine
end

