-- ==== Sys2Proof/Machine/Control.lean ====
section
/-! DEFINITION. Meaning of HLT (40_engine_cycle.md). -/

namespace Sys2Proof.Machine

/-- HLT: the normal stop; it cannot fault, wherever it lies (40_engine_cycle.md R90). -/
def execHlt (s : State) : Result := .next (s.halt .hlt 0x01#8)

end Sys2Proof.Machine
end

