-- ==== Sys2Proof/Machine/LoadOutput.lean ====
section
/-! DEFINITION. Meanings of LDI and PRN (41_load_and_output.md). -/

namespace Sys2Proof.Machine

/-- LDI r, imm: `x[a] <- b` (41_load_and_output.md R100). -/
def execLdi (a b : Byte) (s : State) : Result := commit s do
  let r ← regOperand a
  let next ← s.pcPlus 3
  return (s.setReg r b).setPc next

/-- PRN r: `Emit(x[a])` (41_load_and_output.md R103). -/
def execPrn (a : Byte) (s : State) : Result := commit s do
  let r ← regOperand a
  let next ← s.pcPlus 2
  return (s.emit (s.reg r)).setPc next

end Sys2Proof.Machine
end

