-- ==== Sys2Proof/Machine/Stack.lean ====
section
/-! DEFINITION. Meanings of PUSH, POP, CALL and RET (43_stack.md). The stack is full and descending
(R130). -/

namespace Sys2Proof.Machine

/-- PUSH r: `SP <- SP - 1`, then `M[SP] <- x[a]`; `x[a]` is read after the decrement, so `PUSH R7`
stores the new stack pointer (43_stack.md R132). -/
def execPush (a : Byte) (s : State) : Result := commit s do
  let r ← regOperand a
  let top ← s.pushedSp
  let next ← s.pcPlus 2
  let s₁ := s.setSp top
  return (s₁.memWrite top (s₁.reg r)).setPc next

/-- POP r: `x[a] <- M[SP]`, then `SP <- SP + 1` evaluated after that write, so `POP R7` leaves the
popped byte plus 1 (43_stack.md R134). -/
def execPop (a : Byte) (s : State) : Result := commit s do
  let r ← regOperand a
  let s₁ := s.setReg r (s.memRead s.sp)
  let top ← s₁.poppedSp
  let next ← s.pcPlus 2
  return (s₁.setSp top).setPc next

/-- CALL r: pushes the return address `pc + 2`, then `pc <- x[a]`, read after the decrement
(43_stack.md R136). -/
def execCall (a : Byte) (s : State) : Result := commit s do
  let r ← regOperand a
  let top ← s.pushedSp
  let back ← s.pcPlus 2
  let s₁ := s.setSp top
  return (s₁.memWrite top back).setPc (s₁.reg r)

/-- RET: `pc <- M[SP]`, `SP <- SP + 1` (43_stack.md R138). -/
def execRet (s : State) : Result := commit s do
  let top ← s.poppedSp
  return (s.setSp top).setPc (s.memRead s.sp)

end Sys2Proof.Machine
end

