-- ==== Sys2Proof/Syntax.lean ====
section
/-! DEFINITION. The instructions: one constructor per row of spec/opcode_table.json, in its order. -/

namespace Sys2Proof

/-- An instruction with its operand bytes as they stand in memory (30_encoding.md R60, R64).
`a` is the byte at `pc + 1`, `b` the byte at `pc + 2`. A register operand is kept as the whole byte,
because a byte of 8 or more is a fault of the instruction and no other instruction
(30_encoding.md R62, R69). DESIGN CHOICE, log 17. -/
inductive Instr where
  /-- HLT, 40_engine_cycle.md R90. -/
  | hlt
  /-- LDI r, imm: 41_load_and_output.md R100. -/
  | ldi (a b : Byte)
  /-- PRN r: 41_load_and_output.md R103. -/
  | prn (a : Byte)
  /-- MUL ra, rb: 42_alu.md R115. -/
  | mul (a b : Byte)
  /-- PUSH r: 43_stack.md R132. -/
  | push (a : Byte)
  /-- POP r: 43_stack.md R134. -/
  | pop (a : Byte)
  /-- CALL r: 43_stack.md R136. -/
  | call (a : Byte)
  /-- RET: 43_stack.md R138. -/
  | ret
  /-- CMP a, b: 42_alu.md R118. What the operands name depends on `CMP_SOURCE`. -/
  | cmp (a b : Byte)
  /-- JMP r: 44_branch.md R151. -/
  | jmp (a : Byte)
  /-- JEQ r: 44_branch.md R152. -/
  | jeq (a : Byte)
  /-- JNE r: 44_branch.md R153. -/
  | jne (a : Byte)
  deriving DecidableEq, Repr

end Sys2Proof
end

