-- ==== Sys2Proof/Decode.lean ====
section
/-! DEFINITION. The decoder, total on any bytes, and the encoder, from the opcode table of
30_encoding.md R64. -/

namespace Sys2Proof

/-- The rows of the opcode table, in its order (30_encoding.md R64). -/
inductive Opcode where
  | hlt | ldi | prn | mul | push | pop | call | ret | cmp | jmp | jeq | jne
  deriving DecidableEq, Repr

/-- All rows, in the table's order. -/
def Opcode.all : List Opcode :=
  [.hlt, .ldi, .prn, .mul, .push, .pop, .call, .ret, .cmp, .jmp, .jeq, .jne]

/-- The Encoding column (30_encoding.md R64). -/
def Opcode.encoding : Opcode → Byte
  | .hlt => 0b00000001#8
  | .ldi => 0b10000010#8
  | .prn => 0b01000111#8
  | .mul => 0b10100010#8
  | .push => 0b01000101#8
  | .pop => 0b01000110#8
  | .call => 0b01010000#8
  | .ret => 0b00010001#8
  | .cmp => 0b10100111#8
  | .jmp => 0b01010100#8
  | .jeq => 0b01010101#8
  | .jne => 0b01010110#8

/-- How many operand bytes the row has: 0 for format Z, 1 for R, 2 for RI and RR
(30_encoding.md R60, R64). The instruction's length is one more. -/
def Opcode.operandCount : Opcode → Nat
  | .hlt | .ret => 0
  | .prn | .push | .pop | .call | .jmp | .jeq | .jne => 1
  | .ldi | .mul | .cmp => 2

/-- The instruction length in bytes, a static property of the opcode (30_encoding.md R60, R70). -/
def Opcode.length (o : Opcode) : Nat := o.operandCount + 1

/-- The row whose encoding equals the byte in all eight bits, if there is one
(30_encoding.md R65, R68). -/
def Opcode.ofByte (op : Byte) : Option Opcode := Opcode.all.find? fun o => o.encoding == op

/-- Why bytes are no instruction. -/
inductive DecodeError where
  /-- The opcode byte equals none of the twelve encodings (30_encoding.md R68). -/
  | unknownOpcode (op : Byte)
  /-- The bytes end before the opcode or a needed operand byte (40_engine_cycle.md R83). -/
  | missingByte
  deriving DecidableEq, Repr

/-- Format Z: no operand byte (30_encoding.md R60). -/
def takeNone (i : Instr) (rest : List Byte) : Except DecodeError (Instr × List Byte) :=
  .ok (i, rest)

/-- Format R: the operand byte `a` (30_encoding.md R60). -/
def takeOne (f : Byte → Instr) : List Byte → Except DecodeError (Instr × List Byte)
  | a :: rest => .ok (f a, rest)
  | [] => .error .missingByte

/-- Formats RI and RR: the operand bytes `a` and `b`, in this order (30_encoding.md R60). -/
def takeTwo (f : Byte → Byte → Instr) : List Byte → Except DecodeError (Instr × List Byte)
  | a :: b :: rest => .ok (f a b, rest)
  | [_] => .error .missingByte
  | [] => .error .missingByte

/-- The instruction of a row with the operands it takes from the bytes after its opcode, and the
bytes left over: the Format column of 30_encoding.md R64. -/
def Opcode.takeOperands : Opcode → List Byte → Except DecodeError (Instr × List Byte)
  | .hlt => takeNone .hlt
  | .ldi => takeTwo .ldi
  | .prn => takeOne .prn
  | .mul => takeTwo .mul
  | .push => takeOne .push
  | .pop => takeOne .pop
  | .call => takeOne .call
  | .ret => takeNone .ret
  | .cmp => takeTwo .cmp
  | .jmp => takeOne .jmp
  | .jeq => takeOne .jeq
  | .jne => takeOne .jne

/-- The instruction that begins the bytes and the bytes after it: opcode at the lowest address,
then `a`, then `b` (30_encoding.md R60). The opcode is decoded before any operand is asked for
(40_engine_cycle.md R84). -/
def decode : List Byte → Except DecodeError (Instr × List Byte)
  | [] => .error .missingByte
  | op :: rest =>
    match Opcode.ofByte op with
    | none => .error (.unknownOpcode op)
    | some o => o.takeOperands rest

/-- The row of the opcode table an instruction stands in. -/
def Instr.opcode : Instr → Opcode
  | .hlt => .hlt
  | .ldi _ _ => .ldi
  | .prn _ => .prn
  | .mul _ _ => .mul
  | .push _ => .push
  | .pop _ => .pop
  | .call _ => .call
  | .ret => .ret
  | .cmp _ _ => .cmp
  | .jmp _ => .jmp
  | .jeq _ => .jeq
  | .jne _ => .jne

/-- The operand bytes of an instruction, in address order (30_encoding.md R60). -/
def Instr.operands : Instr → List Byte
  | .hlt | .ret => []
  | .prn a | .push a | .pop a | .call a | .jmp a | .jeq a | .jne a => [a]
  | .ldi a b | .mul a b | .cmp a b => [a, b]

/-- The bytes of an instruction in address order (30_encoding.md R60, R64). -/
def encode (i : Instr) : List Byte := i.opcode.encoding :: i.operands

/-- The three bytes of a table word in address order: bit 0 is the least significant bit of the
first byte, the second byte is bits 15:8, the third bits 23:16; bits at `nbits` and above are 0. -/
def tableWordBytes (nbits w : Nat) : List Byte :=
  let v := w % 2 ^ nbits
  [BitVec.ofNat 8 v, BitVec.ofNat 8 (v / 256), BitVec.ofNat 8 (v / 65536)]

/-- The instruction the decoder reads from a word numbered as spec/opcode_table.json numbers it. -/
def decodeTableWord (nbits w : Nat) : Option Instr :=
  match decode (tableWordBytes nbits w) with
  | .ok (i, _) => some i
  | .error _ => none

end Sys2Proof
end

