-- ==== Sys2Proof/Machine/Fetch.lean ====
section
/-! DEFINITION. Fetching an instruction from memory, and placing one where it is fetched. -/

namespace Sys2Proof.Machine

/-- At most `count` bytes of memory in address order from address `n`; memory ends at 255. -/
def State.bytesFrom (s : State) (n : Nat) : Nat → List Byte
  | 0 => []
  | count + 1 =>
    match s.byteAt n with
    | none => []
    | some v => v :: s.bytesFrom (n + 1) count

/-- The opcode byte and the two bytes after it, as far as memory reaches. They are read anew in every
cycle, and a byte the instruction does not need has no effect
(40_engine_cycle.md R82, R83; 20_memory.md R44, R54). -/
def State.fetchBytes (s : State) : List Byte := s.bytesFrom s.pc.toNat 3

/-- The fault of bytes that are no instruction: no such opcode (40_engine_cycle.md R89), or a needed
operand byte beyond memory (40_engine_cycle.md R83). -/
def decodeCause : DecodeError → Cause
  | .unknownOpcode _ => .invalidOpcode
  | .missingByte => .memAddrRange

/-- Fetch and decode: the instruction at `pc`, or the fault of the first test that fails, opcode
before operand bytes (40_engine_cycle.md R85, R91). -/
def State.fetchInstr (s : State) : Except Cause Instr :=
  match decode s.fetchBytes with
  | .ok (i, _) => .ok i
  | .error e => .error (decodeCause e)

/-- The engine running: what RUN, CAUSE, HALT_PC and HALT_OP hold while it runs
(10_state.md R22 to R24). A running machine is left as it is. -/
def State.running (s : State) : State :=
  if s.run then s else { s with run := true, cause := .none, haltPc := 0#8, haltOp := 0#8 }

/-- The bytes stored in memory at consecutive addresses from `n`, as far as memory reaches. -/
def State.storeBytes (s : State) (n : Nat) : List Byte → State
  | [] => s
  | v :: rest =>
    if n < memSize then ({ s with mem := s.mem.write n v } : State).storeBytes (n + 1) rest else s

end Sys2Proof.Machine
end

