-- ==== Sys2Proof/Machine/Step.lean ====
section
/-! DEFINITION. One cycle of the engine. -/

namespace Sys2Proof.Machine

/-- One cycle (40_engine_cycle.md R91). A halted machine stays as it is (R88, log 7). Else the
instruction at `pc` is fetched and runs, or the fault of its fetch is taken. -/
def step (s : State) : Host.Outcome State Fault Refusal :=
  if s.run then
    match s.fetchInstr with
    | .ok i => exec i s
    | .error c => .next (s.raise c)
  else .next s

/-- `s` with the instruction of a table word stored at `pc`, the place the next step fetches from,
and the engine running. It stands for the host's load port (70_reset_and_hazards.md R195, log 16). -/
def State.withFetchWord (s : State) (nbits w : Nat) : State :=
  s.running.storeBytes s.pc.toNat (tableWordBytes nbits w)

end Sys2Proof.Machine
end

