-- ==== Sys2Proof/Machine/HostPort.lean ====
section
/-! DEFINITION. What the host does to the machine and sees of it, outside any step: reset, the load
port, the status and the trace tap (60_exceptions.md R179 to R181). -/

namespace Sys2Proof.Machine

/-- Reset, applied in any state, running or halted: every field to its reset value; the parameters
stay (70_reset_and_hazards.md R190, R191). -/
def State.applyReset (s : State) : State := State.resetWith s.cfg

/-- The load port: the host writes one byte of memory, between reset and the first cycle
(60_exceptions.md R179, 20_memory.md R56; log 16). -/
def State.loadByte (s : State) (a v : Byte) : State := s.memWrite a v

/-- The Loader's effect on the core: image byte `i` at address `i`. An image of more than 256 bytes
is refused (70_reset_and_hazards.md R195, 92_eei_decisions.md D22). -/
def State.loadImage (s : State) (image : List Byte) : Option State :=
  if image.length ≤ memSize then some (s.storeBytes 0 image) else none

/-- The trace tap's view of the state before a cycle (60_exceptions.md R180). -/
structure Snapshot where
  /-- `pc`. -/
  pc : Byte
  /-- `M[pc]`. -/
  byte0 : Byte
  /-- `M[pc + 1]`, absent past address 255. -/
  byte1 : Option Byte
  /-- `M[pc + 2]`, absent past address 255. -/
  byte2 : Option Byte
  /-- `x[0]` to `x[7]`. -/
  regs : Vector Byte 8
  deriving DecidableEq, Repr

/-- The trace tap: read only; it never faults and never wraps (60_exceptions.md R180). -/
def State.snapshot (s : State) : Snapshot where
  pc := s.pc
  byte0 := s.memRead s.pc
  byte1 := s.byteAt (s.pc.toNat + 1)
  byte2 := s.byteAt (s.pc.toNat + 2)
  regs := s.regs

/-- The status the host reads at any time, `CAUSE` as its code (60_exceptions.md R181). -/
structure Status where
  /-- `RUN`. -/
  run : Bool
  /-- `CAUSE`, three bits (10_state.md R23). -/
  cause : BitVec 3
  /-- `HALT_PC`. -/
  haltPc : Byte
  /-- `HALT_OP`. -/
  haltOp : Byte
  deriving DecidableEq, Repr

/-- The four status registers as the host reads them (60_exceptions.md R181). -/
def State.status (s : State) : Status where
  run := s.run
  cause := s.cause.code
  haltPc := s.haltPc
  haltOp := s.haltOp

end Sys2Proof.Machine
end

