-- ==== Sys2Proof/Safety.lean ====
section
/-! DEFINITION. The terms claims use: how a run ends, fault entry and frames said field by field,
the invariant of the machine, and the spec's fault priority over raw bytes. None of these is used by
the machine. -/

namespace Sys2Proof.Machine

/-! ## The end of a run -/

/-- The run has ended normally (40_engine_cycle.md R92). -/
def State.endedNormally (s : State) : Prop := s.run = false ∧ s.cause = .hlt

/-- The run has ended in a fault: never a normal end (40_engine_cycle.md R92, 60_exceptions.md R160). -/
def State.faulted (s : State) : Prop := s.run = false ∧ s.cause ≠ .hlt

/-- `n` cycles, one after another (40_engine_cycle.md R87). -/
def cycles : Nat → State → Result
  | 0, s => .next s
  | n + 1, s =>
    match step s with
    | .next t => cycles n t
    | .fault f => .fault f
    | .refused r => .refused r

/-- The states repeated cycles lead to (40_engine_cycle.md R92). -/
inductive Reaches : State → State → Prop where
  | refl (s : State) : Reaches s s
  | tail {s t u : State} : Reaches s t → step t = .next u → Reaches s u

/-! ## Entry to the halted state -/

/-- `t` is `s` after the transition to halted with cause `c` and opcode `op`: the four status
registers are written, everything else is as before (40_engine_cycle.md R90, 60_exceptions.md R166). -/
structure HaltEntry (s : State) (c : Cause) (op : Byte) (t : State) : Prop where
  run : t.run = false
  cause : t.cause = c
  haltPc : t.haltPc = s.pc
  haltOp : t.haltOp = op
  pc : t.pc = s.pc
  regs : ∀ i, t.reg i = s.reg i
  flags : t.flags = s.flags
  mem : ∀ x : Byte, t.memRead x = s.memRead x
  out : t.out = s.out
  cfg : t.cfg = s.cfg

/-- The answer `r`, given in state `s`, is the fault `c` taken (60_exceptions.md R166). -/
def Raises (s : State) (r : Result) (c : Cause) : Prop :=
  ∃ t, r = .next t ∧ HaltEntry s c (s.memRead s.pc) t

/-! ## Frames -/

/-- The four status registers and the configuration are as before. -/
structure KeepsStatus (s t : State) : Prop where
  run : t.run = s.run
  cause : t.cause = s.cause
  haltPc : t.haltPc = s.haltPc
  haltOp : t.haltOp = s.haltOp
  cfg : t.cfg = s.cfg

/-- Every byte of memory reads as before. -/
def KeepsMemory (s t : State) : Prop := ∀ x : Byte, t.memRead x = s.memRead x

/-- Every byte of memory reads as before but the byte at `a`. -/
def KeepsMemoryBut (a : Byte) (s t : State) : Prop := ∀ x : Byte, x ≠ a → t.memRead x = s.memRead x

/-- Every register is as before. -/
def KeepsRegs (s t : State) : Prop := ∀ i, t.reg i = s.reg i

/-- Every register is as before but those `p` names. -/
def KeepsRegsBut (p : RegIndex → Prop) (s t : State) : Prop := ∀ i, ¬ p i → t.reg i = s.reg i

/-- `f` is what a compare of `u` and `v` leaves: equal, less, greater, unsigned, the first value the
subject (42_alu.md R113). -/
structure FlagsCompare (f : Flags) (u v : Byte) : Prop where
  e : f.e = true ↔ u = v
  l : f.l = true ↔ u.toNat < v.toNat
  g : f.g = true ↔ v.toNat < u.toNat

/-! ## The invariant -/

/-- Exactly one flag is set (10_state.md R18). -/
def Flags.exactlyOne (f : Flags) : Prop :=
  (f.e = true ∧ f.l = false ∧ f.g = false) ∨ (f.e = false ∧ f.l = true ∧ f.g = false) ∨
    (f.e = false ∧ f.l = false ∧ f.g = true)

/-- What every reachable state has. -/
structure Inv (s : State) : Prop where
  /-- The memory is in its canonical form. -/
  mem : s.mem.wf = true
  /-- While the engine runs the status registers hold their reset values (10_state.md R23, R24). -/
  running : s.run = true → s.cause = .none ∧ s.haltPc = 0#8 ∧ s.haltOp = 0#8
  /-- A halted engine stands on the opcode byte it reports (10_state.md R24). -/
  halted : s.run = false → s.cause ≠ .none ∧ s.haltPc = s.pc ∧ s.haltOp = s.memRead s.pc
  /-- The flags are as reset left them, or a compare's (10_state.md R18). -/
  flags : s.flags = s.cfg.flReset ∨ Flags.exactlyOne s.flags

/-! ## The bytes of an instruction -/

/-- The bytes of `i` lie in memory at `pc` and on, all of them below 256
(30_encoding.md R60, 20_memory.md R44). -/
def State.holdsAtPc (s : State) (i : Instr) : Prop :=
  ∀ k : Nat, (h : k < (encode i).length) →
    s.pc.toNat + k ≤ 255 ∧ s.memRead (s.pc + BitVec.ofNat 8 k) = (encode i)[k]

/-- The opcode byte at `pc`. -/
abbrev State.opByte (s : State) : Byte := s.memRead s.pc

/-- The byte after the opcode byte (meant where `pc + 1` is at most 255). -/
abbrev State.aByte (s : State) : Byte := s.memRead (s.pc + 1#8)

/-- The second byte after the opcode byte (meant where `pc + 2` is at most 255). -/
abbrev State.bByte (s : State) : Byte := s.memRead (s.pc + 2#8)

/-- The cycle in `s` may write register `i` (10_state.md R13): LDI and MUL write `a`; PUSH, POP, CALL
and RET write R7; POP writes `a` too. -/
def mayWriteRegister (s : State) (i : RegIndex) : Prop :=
  (s.opByte ∈ ([0x82, 0xA2, 0x46] : List Byte) ∧ i.val = s.aByte.toNat) ∨
    (s.opByte ∈ ([0x45, 0x46, 0x50, 0x11] : List Byte) ∧ i = 7)

/-! ## The fault of a cycle, from the raw bytes (60_exceptions.md R161 to R165) -/

/-- The twelve opcode bytes, as numbers (30_encoding.md R64). -/
def opcodeBytes : List Byte :=
  [0x01, 0x82, 0x47, 0xA2, 0x45, 0x46, 0x50, 0x11, 0xA7, 0x54, 0x55, 0x56]

/-- The operand count of an opcode byte of the table (30_encoding.md R60, R64). -/
def operandCountOf (op : Byte) : Nat :=
  if op ∈ ([0x82, 0xA2, 0xA7] : List Byte) then 2
  else if op ∈ ([0x47, 0x45, 0x46, 0x50, 0x54, 0x55, 0x56] : List Byte) then 1
  else 0

/-- A register operand byte at `pc + 1` or `pc + 2` names no register
(60_exceptions.md R163): `a` of ten instructions, `b` of MUL, both of CMP under `REG`. -/
def badRegisterIndex (s : State) : Prop :=
  (s.opByte ∈ ([0x82, 0x47, 0xA2, 0x45, 0x46, 0x50, 0x54, 0x55, 0x56] : List Byte) ∧
      8 ≤ s.aByte.toNat) ∨
    (s.opByte = 0xA2#8 ∧ 8 ≤ s.bByte.toNat) ∨
    (s.opByte = 0xA7#8 ∧ s.cfg.cmpSource = .reg ∧ (8 ≤ s.aByte.toNat ∨ 8 ≤ s.bByte.toNat))

/-- The stack pointer would leave its range (60_exceptions.md R164, 43_stack.md R131): a push below
`STACK_FLOOR`; a pop above 255, where `POP R7` increments the popped byte (R134). -/
def badStackPointer (s : State) : Prop :=
  (s.opByte ∈ ([0x45, 0x50] : List Byte) ∧ (s.sp.toNat : Int) - 1 < s.cfg.stackFloor.toNat) ∨
    (s.opByte = 0x46#8 ∧ s.aByte = 7#8 ∧ 255 < (s.memRead s.sp).toNat + 1) ∨
    (s.opByte = 0x46#8 ∧ s.aByte ≠ 7#8 ∧ 255 < s.sp.toNat + 1) ∨
    (s.opByte = 0x11#8 ∧ 255 < s.sp.toNat + 1)

/-- The next-instruction or return address does not fit (60_exceptions.md R162). -/
def badNextAddress (s : State) : Prop :=
  (s.opByte ∈ ([0x82, 0xA2, 0xA7] : List Byte) ∧ 255 < s.pc.toNat + 3) ∨
    (s.opByte ∈ ([0x47, 0x45, 0x46, 0x50] : List Byte) ∧ 255 < s.pc.toNat + 2) ∨
    (s.opByte = 0x55#8 ∧ s.flags.e = false ∧ 255 < s.pc.toNat + 2) ∨
    (s.opByte = 0x56#8 ∧ s.flags.e = true ∧ 255 < s.pc.toNat + 2)

/-- The cycle in `s` meets the fault `c`, the first that applies in the order of
60_exceptions.md R165. -/
def firstFaultIs (s : State) : Cause → Prop
  | .invalidOpcode => s.opByte ∉ opcodeBytes
  | .memAddrRange =>
    s.opByte ∈ opcodeBytes ∧
      (255 < s.pc.toNat + operandCountOf s.opByte ∨
        (¬ badRegisterIndex s ∧ ¬ badStackPointer s ∧ badNextAddress s))
  | .regIndexRange =>
    s.opByte ∈ opcodeBytes ∧ s.pc.toNat + operandCountOf s.opByte ≤ 255 ∧ badRegisterIndex s
  | .spRange =>
    s.opByte ∈ opcodeBytes ∧ s.pc.toNat + operandCountOf s.opByte ≤ 255 ∧
      ¬ badRegisterIndex s ∧ badStackPointer s
  | .none => False
  | .hlt => False

/-- The cycle in `s` meets no fault. -/
def noFault (s : State) : Prop := ∀ c, ¬ firstFaultIs s c

end Sys2Proof.Machine
end

