-- ==== Sys2Proof/WellFormed.lean ====
section
/-! DEFINITION. When an instruction's register operands name registers (30_encoding.md R61, R62). -/

namespace Sys2Proof

/-- A register operand byte names a register exactly when it is 0 to 7: its bits 7:3 are zero
(10_state.md R14, 30_encoding.md R61). -/
def namesRegister (a : Byte) : Bool := a.toNat ≤ 7

/-- Every operand the opcode table marks `reg` names a register. The operands of CMP are registers
only under `CMP_SOURCE = REG`; under `MEM_AT_OPERAND` every byte is an address
(30_encoding.md R62, R66). An immediate is any byte (R63). -/
def Instr.wellFormed (c : Config) : Instr → Bool
  | .hlt => true
  | .ldi a _ => namesRegister a
  | .prn a => namesRegister a
  | .mul a b => namesRegister a && namesRegister b
  | .push a => namesRegister a
  | .pop a => namesRegister a
  | .call a => namesRegister a
  | .ret => true
  | .cmp a b =>
    match c.cmpSource with
    | .memAtOperand => true
    | .reg => namesRegister a && namesRegister b
  | .jmp a => namesRegister a
  | .jeq a => namesRegister a
  | .jne a => namesRegister a

end Sys2Proof
end

