-- ==== Sys2Proof/Certificates/Slice0/Obligations.lean ====
section
/-! DEFINITION. The statements for the provers. Each docstring names the rule of spec/ it formalises.
`⟨a.toNat, h⟩` is the register an operand byte `a` below 8 names, and `7` is the stack pointer. Where a
rule rests on a decision the spec marks as its own (`D<n>` of 92_eei_decisions.md), the docstring names
it. In every statement about an instruction, the fault of a register byte of 8 or more is D10 and D11,
the fault of a next or return address above 255 is D13, the fault of the stack pointer's range is D14 and
D15 (log 14), and the reading of operand bytes at the top of memory is D12 (log 12). -/

open Sys2Proof Sys2Proof.Machine

/-! ## Encoding -/

/-- Decoding the encoding of any instruction, with any bytes after it, gives it and those bytes
back (30_encoding.md R60, R64). -/
def Obligations.DecodeOfEncodeIsTheInstruction : Prop :=
  ∀ (i : Instr) (rest : List Byte), decode (encode i ++ rest) = .ok (i, rest)

/-- Bytes that decode are the encoding of the instruction read, then the bytes left over: a byte
string has no second reading (30_encoding.md R65, R69). -/
def Obligations.DecodedBytesAreTheEncoding : Prop :=
  ∀ (bytes rest : List Byte) (i : Instr), decode bytes = .ok (i, rest) → bytes = encode i ++ rest

/-- An opcode byte is refused exactly when it is none of the twelve of the table, and 244 bytes are
refused (30_encoding.md R64, R65, R68). -/
def Obligations.BytesOutsideTheTableAreRefused : Prop :=
  (∀ (op : Byte) (rest : List Byte),
    decode (op :: rest) = .error (.unknownOpcode op) ↔ op ∉ opcodeBytes) ∧
  ((List.range 256).filter fun n => decide (BitVec.ofNat 8 n ∉ opcodeBytes)).length = 244

/-- Words of the opcode table written out bit by bit decode to their instructions
(30_encoding.md R61, R64). -/
def Obligations.TableWordsDecode : Prop :=
  decodeTableWord 8 0b00000001 = some .hlt ∧
  decodeTableWord 24 0b11111111_00000011_10000010 = some (.ldi 3 255) ∧
  decodeTableWord 16 0b00000101_01000111 = some (.prn 5) ∧
  decodeTableWord 24 0b00000001_00000000_10100010 = some (.mul 0 1) ∧
  decodeTableWord 16 0b00000111_01000101 = some (.push 7) ∧
  decodeTableWord 8 0b00010001 = some .ret ∧
  decodeTableWord 24 0b00001000_11110010_10100111 = some (.cmp 0xF2 8) ∧
  decodeTableWord 16 0b00000010_01010101 = some (.jeq 2) ∧
  decodeTableWord 8 0b11111111 = none ∧
  decodeTableWord 24 0b00000001_00000000_10100000 = none

/-- Two instructions with the same opcode byte have the same length, which is 1, 2 or 3
(30_encoding.md R60, R70). -/
def Obligations.LengthIsAPropertyOfTheOpcode : Prop :=
  ∀ i j : Instr, (encode i).length ≤ 3 ∧ 1 ≤ (encode i).length ∧
    ((encode i).head? = (encode j).head? → (encode i).length = (encode j).length)

/-! ## The cycle -/

/-- Where the bytes of `i` lie at `pc`, a step of a running machine is `exec i`, with nothing around
it: every meaning moves `pc` itself (40_engine_cycle.md R91). -/
def Obligations.StepRunsTheInstructionAtPc : Prop :=
  ∀ (s : State) (i : Instr), s.run = true → s.holdsAtPc i → step s = exec i s

/-- A halted machine stays exactly as it is through any number of cycles
(40_engine_cycle.md R88, its decision D20). That the step answers the state itself is the model's choice
between the two readings of R88, log 7. -/
def Obligations.HaltedMachineStaysAsItIs : Prop :=
  ∀ (s : State) (n : Nat), s.run = false → cycles n s = .next s

/-- A step, and every instruction, answers a next state in every state: the step is total
(40_engine_cycle.md R91). That faults are next states is log 6. -/
def Obligations.EveryStepAnswersANextState : Prop :=
  (∀ s : State, ∃ t, step s = .next t) ∧ ∀ (i : Instr) (s : State), ∃ t, exec i s = .next t

/-- The fault a cycle takes is the first that applies in the order of 60_exceptions.md R165, computed
from the raw bytes at `pc`; where none applies the cycle completes, and halts only at HLT. The
order is the spec's decision D17. -/
def Obligations.FirstFaultThatAppliesIsTaken : Prop :=
  ∀ s : State, s.run = true →
    (∀ c, firstFaultIs s c → Raises s (step s) c) ∧
    (noFault s → s.opByte ≠ 0x01#8 → ∃ t, step s = .next t ∧ KeepsStatus s t) ∧
    (noFault s → s.opByte = 0x01#8 → ∃ t, step s = .next t ∧ HaltEntry s .hlt 0x01#8 t)

/-- A cycle that ends in a fault changes RUN, CAUSE, HALT_PC and HALT_OP and nothing else, and `pc`
equals HALT_PC (60_exceptions.md R166, its decisions D16 and D19). -/
def Obligations.FaultsArePrecise : Prop :=
  ∀ s t : State, s.run = true → step s = .next t → t.faulted →
    HaltEntry s t.cause (s.memRead s.pc) t ∧ t.pc = t.haltPc

/-- A run ends normally exactly at the opcode byte of HLT (40_engine_cycle.md R90, R92). -/
def Obligations.OnlyHltEndsARunNormally : Prop :=
  ∀ s t : State, s.run = true → step s = .next t → (t.endedNormally ↔ s.opByte = 0x01#8)

/-- The invalid-opcode fault is taken exactly when the byte at `pc` is none of the twelve, and
nothing else changes (40_engine_cycle.md R89, 60_exceptions.md R161). -/
def Obligations.InvalidOpcodeIsTakenExactlyOutsideTheTable : Prop :=
  ∀ s : State, s.run = true → (s.opByte ∉ opcodeBytes ↔ Raises s (step s) .invalidOpcode)

/-- An instruction takes the register-index fault exactly when a register operand of it names no
register, whatever else is wrong and whether or not it would use the register
(30_encoding.md R62, 60_exceptions.md R163, their decisions D10 and D11). -/
def Obligations.BadRegisterOperandIsTheIndexFault : Prop :=
  ∀ (i : Instr) (s : State), s.run = true →
    (i.wellFormed s.cfg = false ↔ Raises s (exec i s) .regIndexRange)

/-! ## The instructions -/

/-- HLT (40_engine_cycle.md R90): it completes in every state, wherever it lies. That `pc` stays on
it is the spec's decision D19. -/
def Obligations.HltHaltsNormally : Prop :=
  ∀ s : State,
    encode .hlt = [0b00000001#8] ∧
    (∃ t, exec .hlt s = .next t ∧ HaltEntry s .hlt 0x01#8 t) ∧
    (s.run = true → s.opByte = 0x01#8 → step s = exec .hlt s)

/-- LDI (41_load_and_output.md R100). -/
def Obligations.LdiWritesItsImmediate : Prop :=
  ∀ (a b : Byte) (s : State),
    encode (.ldi a b) = [0b10000010#8, a, b] ∧
    (8 ≤ a.toNat → Raises s (exec (.ldi a b) s) .regIndexRange) ∧
    (a.toNat < 8 → 255 < s.pc.toNat + 3 → Raises s (exec (.ldi a b) s) .memAddrRange) ∧
    (∀ h : a.toNat < 8, s.pc.toNat + 3 ≤ 255 → ∃ t, exec (.ldi a b) s = .next t ∧
      t.reg ⟨a.toNat, h⟩ = b ∧ t.pc.toNat = s.pc.toNat + 3 ∧
      KeepsRegsBut (fun i => i = ⟨a.toNat, h⟩) s t ∧
      t.flags = s.flags ∧ KeepsMemory s t ∧ t.out = s.out ∧ KeepsStatus s t) ∧
    (s.run = true → s.opByte = 0x82#8 → 254 ≤ s.pc.toNat → Raises s (step s) .memAddrRange)

/-- PRN (41_load_and_output.md R103). -/
def Obligations.PrnEmitsItsRegister : Prop :=
  ∀ (a : Byte) (s : State),
    encode (.prn a) = [0b01000111#8, a] ∧
    (8 ≤ a.toNat → Raises s (exec (.prn a) s) .regIndexRange) ∧
    (a.toNat < 8 → 255 < s.pc.toNat + 2 → Raises s (exec (.prn a) s) .memAddrRange) ∧
    (∀ h : a.toNat < 8, s.pc.toNat + 2 ≤ 255 → ∃ t, exec (.prn a) s = .next t ∧
      t.out = s.out ++ [s.reg ⟨a.toNat, h⟩] ∧ t.pc.toNat = s.pc.toNat + 2 ∧
      KeepsRegs s t ∧ t.flags = s.flags ∧ KeepsMemory s t ∧ KeepsStatus s t) ∧
    (s.run = true → s.opByte = 0x47#8 → s.pc.toNat = 255 → Raises s (step s) .memAddrRange)

/-- MUL (42_alu.md R115): the low byte of the unsigned product, both operands read first. -/
def Obligations.MulWritesTheLowByteOfTheProduct : Prop :=
  ∀ (a b : Byte) (s : State),
    encode (.mul a b) = [0b10100010#8, a, b] ∧
    (8 ≤ a.toNat ∨ 8 ≤ b.toNat → Raises s (exec (.mul a b) s) .regIndexRange) ∧
    (a.toNat < 8 → b.toNat < 8 → 255 < s.pc.toNat + 3 →
      Raises s (exec (.mul a b) s) .memAddrRange) ∧
    (∀ (ha : a.toNat < 8) (hb : b.toNat < 8), s.pc.toNat + 3 ≤ 255 →
      ∃ t, exec (.mul a b) s = .next t ∧
      (t.reg ⟨a.toNat, ha⟩).toNat =
        (s.reg ⟨a.toNat, ha⟩).toNat * (s.reg ⟨b.toNat, hb⟩).toNat % 256 ∧
      t.pc.toNat = s.pc.toNat + 3 ∧ KeepsRegsBut (fun i => i = ⟨a.toNat, ha⟩) s t ∧
      t.flags = s.flags ∧ KeepsMemory s t ∧ t.out = s.out ∧ KeepsStatus s t) ∧
    (s.run = true → s.opByte = 0xA2#8 → 254 ≤ s.pc.toNat → Raises s (step s) .memAddrRange)

/-- CMP (42_alu.md R118), under both values of `CMP_SOURCE`: the parameter is the spec's decision D8, the
sense and the unsigned reading of less and greater its decision D9. -/
def Obligations.CmpSetsTheFlagsFromItsSource : Prop :=
  ∀ (a b : Byte) (s : State),
    encode (.cmp a b) = [0b10100111#8, a, b] ∧
    (s.cfg.cmpSource = .memAtOperand → 255 < s.pc.toNat + 3 →
      Raises s (exec (.cmp a b) s) .memAddrRange) ∧
    (s.cfg.cmpSource = .memAtOperand → s.pc.toNat + 3 ≤ 255 →
      ∃ t, exec (.cmp a b) s = .next t ∧ FlagsCompare t.flags (s.memRead a) (s.memRead b) ∧
      t.pc.toNat = s.pc.toNat + 3 ∧ KeepsRegs s t ∧ KeepsMemory s t ∧ t.out = s.out ∧
      KeepsStatus s t) ∧
    (s.cfg.cmpSource = .reg → 8 ≤ a.toNat ∨ 8 ≤ b.toNat →
      Raises s (exec (.cmp a b) s) .regIndexRange) ∧
    (s.cfg.cmpSource = .reg → a.toNat < 8 → b.toNat < 8 → 255 < s.pc.toNat + 3 →
      Raises s (exec (.cmp a b) s) .memAddrRange) ∧
    (s.cfg.cmpSource = .reg → ∀ (ha : a.toNat < 8) (hb : b.toNat < 8), s.pc.toNat + 3 ≤ 255 →
      ∃ t, exec (.cmp a b) s = .next t ∧
      FlagsCompare t.flags (s.reg ⟨a.toNat, ha⟩) (s.reg ⟨b.toNat, hb⟩) ∧
      t.pc.toNat = s.pc.toNat + 3 ∧ KeepsRegs s t ∧ KeepsMemory s t ∧ t.out = s.out ∧
      KeepsStatus s t) ∧
    (s.run = true → s.opByte = 0xA7#8 → 254 ≤ s.pc.toNat → Raises s (step s) .memAddrRange)

/-- PUSH (43_stack.md R132). `top` is the address stored to, as the meaning computes it. `PUSH R7`
stores the decremented stack pointer: the spec's decision D24. -/
def Obligations.PushStoresBelowTheStackPointer : Prop :=
  ∀ (a : Byte) (s : State),
    encode (.push a) = [0b01000101#8, a] ∧
    (8 ≤ a.toNat → Raises s (exec (.push a) s) .regIndexRange) ∧
    (a.toNat < 8 → ((s.reg 7).toNat : Int) - 1 < s.cfg.stackFloor.toNat →
      Raises s (exec (.push a) s) .spRange) ∧
    (a.toNat < 8 → (s.cfg.stackFloor.toNat : Int) ≤ ((s.reg 7).toNat : Int) - 1 →
      255 < s.pc.toNat + 2 → Raises s (exec (.push a) s) .memAddrRange) ∧
    (∀ h : a.toNat < 8, (s.cfg.stackFloor.toNat : Int) ≤ ((s.reg 7).toNat : Int) - 1 →
      s.pc.toNat + 2 ≤ 255 → ∃ top t, s.pushedSp = .ok top ∧ top.toNat + 1 = (s.reg 7).toNat ∧
      exec (.push a) s = .next t ∧ t.reg 7 = top ∧
      (s.mem.wf = true → t.memRead top = if a.toNat = 7 then top else s.reg ⟨a.toNat, h⟩) ∧
      t.pc.toNat = s.pc.toNat + 2 ∧ KeepsRegsBut (fun i => i = 7) s t ∧
      KeepsMemoryBut top s t ∧ t.flags = s.flags ∧ t.out = s.out ∧ KeepsStatus s t) ∧
    (s.run = true → s.opByte = 0x45#8 → s.pc.toNat = 255 → Raises s (step s) .memAddrRange)

/-- POP (43_stack.md R134). `POP R7` leaves the popped byte plus 1, and its range test is of that
value: the spec's decision D24. -/
def Obligations.PopLoadsFromTheStackPointer : Prop :=
  ∀ (a : Byte) (s : State),
    encode (.pop a) = [0b01000110#8, a] ∧
    (8 ≤ a.toNat → Raises s (exec (.pop a) s) .regIndexRange) ∧
    (a.toNat < 8 → 255 < (if a.toNat = 7 then s.memRead (s.reg 7) else s.reg 7).toNat + 1 →
      Raises s (exec (.pop a) s) .spRange) ∧
    (a.toNat < 8 → (if a.toNat = 7 then s.memRead (s.reg 7) else s.reg 7).toNat + 1 ≤ 255 →
      255 < s.pc.toNat + 2 → Raises s (exec (.pop a) s) .memAddrRange) ∧
    (∀ h : a.toNat < 8, (if a.toNat = 7 then s.memRead (s.reg 7) else s.reg 7).toNat + 1 ≤ 255 →
      s.pc.toNat + 2 ≤ 255 → ∃ t, exec (.pop a) s = .next t ∧
      (a.toNat ≠ 7 → t.reg ⟨a.toNat, h⟩ = s.memRead (s.reg 7)) ∧
      (t.reg 7).toNat = (if a.toNat = 7 then s.memRead (s.reg 7) else s.reg 7).toNat + 1 ∧
      t.pc.toNat = s.pc.toNat + 2 ∧
      KeepsRegsBut (fun i => i = ⟨a.toNat, h⟩ ∨ i = 7) s t ∧
      KeepsMemory s t ∧ t.flags = s.flags ∧ t.out = s.out ∧ KeepsStatus s t) ∧
    (s.run = true → s.opByte = 0x46#8 → s.pc.toNat = 255 → Raises s (step s) .memAddrRange)

/-- CALL (43_stack.md R136). `top` is the address stored to, as the meaning computes it. `CALL R7`
jumps to the decremented stack pointer: the spec's decision D24. -/
def Obligations.CallPushesTheReturnAddressAndJumps : Prop :=
  ∀ (a : Byte) (s : State),
    encode (.call a) = [0b01010000#8, a] ∧
    (8 ≤ a.toNat → Raises s (exec (.call a) s) .regIndexRange) ∧
    (a.toNat < 8 → ((s.reg 7).toNat : Int) - 1 < s.cfg.stackFloor.toNat →
      Raises s (exec (.call a) s) .spRange) ∧
    (a.toNat < 8 → (s.cfg.stackFloor.toNat : Int) ≤ ((s.reg 7).toNat : Int) - 1 →
      255 < s.pc.toNat + 2 → Raises s (exec (.call a) s) .memAddrRange) ∧
    (∀ h : a.toNat < 8, (s.cfg.stackFloor.toNat : Int) ≤ ((s.reg 7).toNat : Int) - 1 →
      s.pc.toNat + 2 ≤ 255 → ∃ top t, s.pushedSp = .ok top ∧ top.toNat + 1 = (s.reg 7).toNat ∧
      exec (.call a) s = .next t ∧ t.reg 7 = top ∧
      (s.mem.wf = true → (t.memRead top).toNat = s.pc.toNat + 2) ∧
      t.pc = (if a.toNat = 7 then top else s.reg ⟨a.toNat, h⟩) ∧
      KeepsRegsBut (fun i => i = 7) s t ∧
      KeepsMemoryBut top s t ∧ t.flags = s.flags ∧ t.out = s.out ∧ KeepsStatus s t) ∧
    (s.run = true → s.opByte = 0x50#8 → s.pc.toNat = 255 → Raises s (step s) .memAddrRange)

/-- RET (43_stack.md R138): it runs at any address, 255 included. -/
def Obligations.RetPopsIntoTheProgramCounter : Prop :=
  ∀ s : State,
    encode .ret = [0b00010001#8] ∧
    ((s.reg 7).toNat = 255 → Raises s (exec .ret s) .spRange) ∧
    ((s.reg 7).toNat < 255 → ∃ t, exec .ret s = .next t ∧ t.pc = s.memRead (s.reg 7) ∧
      (t.reg 7).toNat = (s.reg 7).toNat + 1 ∧ KeepsRegsBut (fun i => i = 7) s t ∧
      KeepsMemory s t ∧ t.flags = s.flags ∧ t.out = s.out ∧ KeepsStatus s t) ∧
    (s.run = true → s.opByte = 0x11#8 → step s = exec .ret s)

/-- JMP (44_branch.md R151): no next address is tested, so it completes at 254 too. -/
def Obligations.JmpLoadsTheProgramCounter : Prop :=
  ∀ (a : Byte) (s : State),
    encode (.jmp a) = [0b01010100#8, a] ∧
    (8 ≤ a.toNat → Raises s (exec (.jmp a) s) .regIndexRange) ∧
    (∀ h : a.toNat < 8, ∃ t, exec (.jmp a) s = .next t ∧ t.pc = s.reg ⟨a.toNat, h⟩ ∧
      KeepsRegs s t ∧ KeepsMemory s t ∧ t.flags = s.flags ∧ t.out = s.out ∧ KeepsStatus s t) ∧
    (s.run = true → s.opByte = 0x54#8 → s.pc.toNat = 255 → Raises s (step s) .memAddrRange)

/-- JEQ (44_branch.md R152): the index is tested whether or not the jump is taken. -/
def Obligations.JeqJumpsWhenEqual : Prop :=
  ∀ (a : Byte) (s : State),
    encode (.jeq a) = [0b01010101#8, a] ∧
    (8 ≤ a.toNat → Raises s (exec (.jeq a) s) .regIndexRange) ∧
    (∀ h : a.toNat < 8, s.flags.e = true → ∃ t, exec (.jeq a) s = .next t ∧
      t.pc = s.reg ⟨a.toNat, h⟩ ∧
      KeepsRegs s t ∧ KeepsMemory s t ∧ t.flags = s.flags ∧ t.out = s.out ∧ KeepsStatus s t) ∧
    (a.toNat < 8 → s.flags.e = false → 255 < s.pc.toNat + 2 →
      Raises s (exec (.jeq a) s) .memAddrRange) ∧
    (a.toNat < 8 → s.flags.e = false → s.pc.toNat + 2 ≤ 255 → ∃ t, exec (.jeq a) s = .next t ∧
      t.pc.toNat = s.pc.toNat + 2 ∧
      KeepsRegs s t ∧ KeepsMemory s t ∧ t.flags = s.flags ∧ t.out = s.out ∧ KeepsStatus s t) ∧
    (s.run = true → s.opByte = 0x55#8 → s.pc.toNat = 255 → Raises s (step s) .memAddrRange)

/-- JNE (44_branch.md R153): the index is tested whether or not the jump is taken. -/
def Obligations.JneJumpsWhenNotEqual : Prop :=
  ∀ (a : Byte) (s : State),
    encode (.jne a) = [0b01010110#8, a] ∧
    (8 ≤ a.toNat → Raises s (exec (.jne a) s) .regIndexRange) ∧
    (∀ h : a.toNat < 8, s.flags.e = false → ∃ t, exec (.jne a) s = .next t ∧
      t.pc = s.reg ⟨a.toNat, h⟩ ∧
      KeepsRegs s t ∧ KeepsMemory s t ∧ t.flags = s.flags ∧ t.out = s.out ∧ KeepsStatus s t) ∧
    (a.toNat < 8 → s.flags.e = true → 255 < s.pc.toNat + 2 →
      Raises s (exec (.jne a) s) .memAddrRange) ∧
    (a.toNat < 8 → s.flags.e = true → s.pc.toNat + 2 ≤ 255 → ∃ t, exec (.jne a) s = .next t ∧
      t.pc.toNat = s.pc.toNat + 2 ∧
      KeepsRegs s t ∧ KeepsMemory s t ∧ t.flags = s.flags ∧ t.out = s.out ∧ KeepsStatus s t) ∧
    (s.run = true → s.opByte = 0x56#8 → s.pc.toNat = 255 → Raises s (step s) .memAddrRange)

/-! ## The ALU -/

/-- The three operations of the ALU (42_alu.md R110 to R113). The sense and the unsigned
reading of less and greater are the spec's decision D9. -/
def Obligations.AluOperationsCompute : Prop :=
  ∀ u v : Byte,
    (∃ w, alu .add u v = .value w ∧ w.toNat = (u.toNat + v.toNat) % 256) ∧
    (∃ w, alu .mul u v = .value w ∧ w.toNat = u.toNat * v.toNat % 256) ∧
    (∃ f, alu .cmp u v = .flags f ∧ FlagsCompare f u v ∧ Flags.exactlyOne f)

/-- After a CMP that completes, exactly one flag is set, and the jumps go by the equality of the two
values compared (42_alu.md R120): JEQ jumps exactly when they are equal, JNE when not. -/
def Obligations.CompareOutcomeDecidesTheJump : Prop :=
  ∀ (a b r : Byte) (s t : State) (u v : Byte) (h : r.toNat < 8), s.run = true →
    s.comparands a b = .ok (u, v) → s.pc.toNat + 3 ≤ 255 → exec (.cmp a b) s = .next t →
    t.pc.toNat + 2 ≤ 255 →
    (u = v → t.flags = ⟨true, false, false⟩ ∧
      exec (.jeq r) t = .next (t.setPc (t.reg ⟨r.toNat, h⟩)) ∧
      exec (.jne r) t = .next (t.setPc (t.pc + 2#8))) ∧
    (u.toNat < v.toNat → t.flags = ⟨false, true, false⟩ ∧
      exec (.jeq r) t = .next (t.setPc (t.pc + 2#8)) ∧
      exec (.jne r) t = .next (t.setPc (t.reg ⟨r.toNat, h⟩))) ∧
    (v.toNat < u.toNat → t.flags = ⟨false, false, true⟩ ∧
      exec (.jeq r) t = .next (t.setPc (t.pc + 2#8)) ∧
      exec (.jne r) t = .next (t.setPc (t.reg ⟨r.toNat, h⟩)))

/-! ## The laws of two instructions -/

/-- LDI then PRN of the same register emits the immediate, R7 included
(41_load_and_output.md R101). -/
def Obligations.LdiThenPrnEmitsTheImmediate : Prop :=
  ∀ (r imm : Byte) (s : State), r.toNat < 8 → s.pc.toNat + 5 ≤ 255 →
    ∃ t u, exec (.ldi r imm) s = .next t ∧ exec (.prn r) t = .next u ∧ u.out = s.out ++ [imm]

/-- MUL then PRN of its first register emits the product mod 256, for equal registers too
(42_alu.md R116). -/
def Obligations.MulThenPrnEmitsTheProduct : Prop :=
  ∀ (a b : Byte) (s : State) (ha : a.toNat < 8) (hb : b.toNat < 8), s.pc.toNat + 5 ≤ 255 →
    ∃ t u w, exec (.mul a b) s = .next t ∧ exec (.prn a) t = .next u ∧ u.out = s.out ++ [w] ∧
      w.toNat = (s.reg ⟨a.toNat, ha⟩).toNat * (s.reg ⟨b.toNat, hb⟩).toNat % 256

/-- PUSH then POP of the same register, neither faulting, gives every register back, R7 included;
the cell below the old stack pointer keeps the pushed byte (43_stack.md R133). -/
def Obligations.PushThenPopRestoresTheRegisters : Prop :=
  ∀ (r : Byte) (s t u : State), s.mem.wf = true → s.run = true →
    exec (.push r) s = .next t → t.run = true → exec (.pop r) t = .next u → u.run = true →
    KeepsRegs s u ∧ u.memRead (t.reg 7) = t.memRead (t.reg 7)

/-- CALL, then RET in any state whose stack pointer is the one CALL left and whose cell there still
holds the byte CALL wrote, resumes after the CALL with the stack pointer the CALL found
(43_stack.md R137). -/
def Obligations.CallThenRetResumesAfterTheCall : Prop :=
  ∀ (a : Byte) (s t u : State), s.mem.wf = true → s.run = true →
    exec (.call a) s = .next t → t.run = true →
    u.reg 7 = t.reg 7 → u.memRead (t.reg 7) = t.memRead (t.reg 7) →
    ∃ v, exec .ret u = .next v ∧ v.pc.toNat = s.pc.toNat + 2 ∧ v.reg 7 = s.reg 7

/-- Exactly one of JEQ and JNE of the same register jumps (44_branch.md R154), where not jumping is no
fault (`pc + 2` is at most 255) and a jump shows (`x[r]` differs from `pc + 2`). The states left out,
`pc` 254 and 255 and `x[r] = pc + 2`, are covered by `JeqJumpsWhenEqual` and `JneJumpsWhenNotEqual`. -/
def Obligations.ExactlyOneOfJeqAndJneJumps : Prop :=
  ∀ (r : Byte) (s : State) (h : r.toNat < 8), s.pc.toNat + 2 ≤ 255 →
    s.reg ⟨r.toNat, h⟩ ≠ s.pc + 2#8 →
    ∃ t u, exec (.jeq r) s = .next t ∧ exec (.jne r) s = .next u ∧
      (t.pc = s.reg ⟨r.toNat, h⟩ ↔ u.pc ≠ s.reg ⟨r.toNat, h⟩) ∧
      (t.pc = s.reg ⟨r.toNat, h⟩ ↔ s.flags.e = true)

/-! ## The whole machine -/

/-- A cycle changes the flags only where the opcode byte is CMP's, and a CMP that faults does not
(10_state.md R19). -/
def Obligations.OnlyCmpChangesTheFlags : Prop :=
  ∀ s t : State, step s = .next t →
    (s.opByte ≠ 0xA7#8 → t.flags = s.flags) ∧ (s.run = true → t.run = false → t.flags = s.flags)

/-- `FL.L` and `FL.G` are never read: two machines that differ in them only do the same and still
differ in them only (10_state.md R19). -/
def Obligations.LessAndGreaterAreNeverRead : Prop :=
  ∀ (s t : State) (l g : Bool), step s = .next t → ∃ l' g' : Bool,
    step { s with flags := ⟨s.flags.e, l, g⟩ } = .next { t with flags := ⟨t.flags.e, l', g'⟩ }

/-- Only PUSH and CALL change memory, each the one cell below the stack pointer
(20_memory.md R43). -/
def Obligations.OnlyPushAndCallChangeMemory : Prop :=
  ∀ s t : State, step s = .next t →
    (s.opByte ∉ ([0x45, 0x50] : List Byte) → KeepsMemory s t) ∧
    KeepsMemoryBut (s.reg 7 - 1#8) s t

/-- A cycle changes no register but those its instruction writes (10_state.md R13). -/
def Obligations.OnlyListedRegistersChange : Prop :=
  ∀ s t : State, step s = .next t → KeepsRegsBut (mayWriteRegister s) s t

/-- The output log is empty at reset, only grows, by one byte at a PRN and else not at all, and no
instruction reads it (10_state.md R27, its decision D23). -/
def Obligations.OutputLogIsAppendOnlyAndNeverRead : Prop :=
  State.reset.out = [] ∧
  ∀ (s t : State) (log : List Byte), step s = .next t → ∃ w : List Byte,
    w.length ≤ 1 ∧ (s.opByte ≠ 0x47#8 → w = []) ∧ t.out = s.out ++ w ∧
    step { s with out := log } = .next { t with out := log ++ w }

/-- No step changes the configuration: it is no state (10_state.md R10). Its place in State is the
model's choice, log 1. -/
def Obligations.NoStepChangesTheConfiguration : Prop :=
  ∀ s t : State, step s = .next t → t.cfg = s.cfg

/-- Every step keeps the invariant: canonical memory, status registers at their reset values while
running and naming the instruction at `pc` when halted, flags as reset or a compare left them
(10_state.md R18, R23, R24). The memory's form is the model's choice, log 9. -/
def Obligations.EveryStepKeepsTheInvariant : Prop :=
  ∀ s t : State, Inv s → step s = .next t → Inv t

/-- The invariant holds right after reset, for every value of the parameters (10_state.md R30). The
memory's form is the model's choice, log 9. -/
def Obligations.InvariantHoldsAtReset : Prop :=
  Inv State.reset ∧ ∀ c : Config, Inv (State.resetWith c)

/-! ## Reset, memory, the host's side -/

/-- Every piece of state after reset, in terms of the parameters; reset may be applied in any state;
and the spec's default `SP_RESET` and `FL_RESET` (10_state.md R30; the defaults are its decisions D5
and D6, the status registers its decision D18). -/
def Obligations.ResetSetsEveryPieceOfState : Prop :=
  (∀ s : State, ∀ t : State, t = s.applyReset →
    (∀ x : Byte, t.memRead x = 0#8) ∧ (∀ i : RegIndex, i ≠ 7 → t.reg i = 0#8) ∧
    t.reg 7 = s.cfg.spReset ∧ t.pc = 0#8 ∧ t.flags = s.cfg.flReset ∧ t.run = true ∧
    t.cause.code = 0#3 ∧ t.haltPc = 0#8 ∧ t.haltOp = 0#8 ∧ t.out = []) ∧
  (State.reset.reg 7 = 0xF3#8 ∧ State.reset.flags = ⟨false, false, false⟩ ∧
    State.reset.applyReset = State.reset)

/-- A read gives the byte last written to the address, a write changes no other cell, and a cell not
written since reset reads 0 (20_memory.md R40). That the write keeps the canonical form, which is also
the premise, is no part of R40: the form is the model's choice, log 9. -/
def Obligations.ReadGivesTheByteLastWritten : Prop :=
  ∀ (s : State) (a v : Byte), s.mem.wf = true →
    (s.memWrite a v).memRead a = v ∧ KeepsMemoryBut a s (s.memWrite a v) ∧
    (s.memWrite a v).mem.wf = true ∧ (∀ c : Config, (State.resetWith c).memRead a = 0#8)

/-- Canonical memories that read the same everywhere are the same list. The form is the model's
choice, log 9. -/
def Obligations.EqualReadsMakeEqualMemories : Prop :=
  ∀ s t : State, s.mem.wf = true → t.mem.wf = true → KeepsMemory s t → s.mem = t.mem

/-- A byte written is what the next fetch sees, in any of the instruction's bytes
(20_memory.md R54). -/
def Obligations.FetchSeesTheByteWritten : Prop :=
  ∀ (s : State) (a v : Byte) (k : Nat), s.mem.wf = true → k < 3 → s.pc.toNat + k = a.toNat →
    (s.memWrite a v).fetchBytes[k]? = some v

/-- After loading an image into a machine just reset, cell `i` holds image byte `i`, and every other
cell 0; an image of more than 256 bytes is refused (70_reset_and_hazards.md R195, its decision D22).
`loadImage`, which stands for the host's load, is the model's choice, log 16, and so is the memory's
canonical form, log 9. -/
def Obligations.LoadedImageLiesAtAddressZero : Prop :=
  ∀ (c : Config) (image : List Byte),
    (image.length ≤ 256 → ∃ s, (State.resetWith c).loadImage image = some s ∧
      (∀ x : Byte, s.memRead x = image.getD x.toNat 0#8) ∧ s.mem.wf = true ∧
      KeepsRegs (State.resetWith c) s ∧ KeepsStatus (State.resetWith c) s ∧
      s.pc = 0#8 ∧ s.flags = c.flReset ∧ s.out = []) ∧
    (256 < image.length → (State.resetWith c).loadImage image = none)

/-- The trace tap shows `pc`, the bytes at `pc`, `pc + 1` and `pc + 2` that exist, and the registers
(60_exceptions.md R180, its decision D28). -/
def Obligations.SnapshotShowsTheBytesThatExist : Prop :=
  ∀ s : State, s.snapshot.pc = s.pc ∧ s.snapshot.byte0 = s.memRead s.pc ∧
    s.snapshot.regs = s.regs ∧
    (s.pc.toNat ≤ 254 → s.snapshot.byte1 = some (s.memRead (s.pc + 1#8))) ∧
    (s.pc.toNat = 255 → s.snapshot.byte1 = none) ∧
    (s.pc.toNat ≤ 253 → s.snapshot.byte2 = some (s.memRead (s.pc + 2#8))) ∧
    (254 ≤ s.pc.toNat → s.snapshot.byte2 = none)

/-- The status the host reads carries the codes of `CAUSE`, and the codes 6 and 7 never
(10_state.md R23, 60_exceptions.md R181). The numbers are the spec's decision D18. -/
def Obligations.StatusCarriesTheCauseCodes : Prop :=
  [Cause.none, .hlt, .invalidOpcode, .memAddrRange, .regIndexRange, .spRange].map Cause.code =
    [0#3, 1#3, 2#3, 3#3, 4#3, 5#3] ∧
  ∀ s : State, s.status.run = s.run ∧ s.status.cause = s.cause.code ∧
    s.status.haltPc = s.haltPc ∧ s.status.haltOp = s.haltOp ∧ s.status.cause.toNat < 6

/-- An instruction placed for the next step is what the next step runs, where three bytes lie at
`pc`. The placing is the model's, log 16. -/
def Obligations.PlacedInstructionRunsNext : Prop :=
  ∀ (s : State) (nbits w : Nat) (i : Instr), s.mem.wf = true → s.pc.toNat ≤ 253 →
    decodeTableWord nbits w = some i →
    step (s.withFetchWord nbits w) = exec i (s.withFetchWord nbits w)
end

