-- ==== Sys2Proof/Laws/State.lean ====
section
/-! SUPPORT. What each update of the state leaves in each field, and in each read. -/

namespace Sys2Proof.Machine

variable (s : State) (i j : RegIndex) (a v t op x : Byte) (f : Flags) (c : Cause)

/-! ### setReg -/

@[simp] theorem State.setReg_cfg : (s.setReg i v).cfg = s.cfg := rfl
@[simp] theorem State.setReg_mem : (s.setReg i v).mem = s.mem := rfl
@[simp] theorem State.setReg_regs : (s.setReg i v).regs = s.regs.set i.val v i.isLt := rfl
@[simp] theorem State.setReg_pc : (s.setReg i v).pc = s.pc := rfl
@[simp] theorem State.setReg_flags : (s.setReg i v).flags = s.flags := rfl
@[simp] theorem State.setReg_run : (s.setReg i v).run = s.run := rfl
@[simp] theorem State.setReg_cause : (s.setReg i v).cause = s.cause := rfl
@[simp] theorem State.setReg_haltPc : (s.setReg i v).haltPc = s.haltPc := rfl
@[simp] theorem State.setReg_haltOp : (s.setReg i v).haltOp = s.haltOp := rfl
@[simp] theorem State.setReg_out : (s.setReg i v).out = s.out := rfl
@[simp] theorem State.setReg_memRead : (s.setReg i v).memRead x = s.memRead x := rfl

/-! ### setPc -/

@[simp] theorem State.setPc_cfg : (s.setPc t).cfg = s.cfg := rfl
@[simp] theorem State.setPc_mem : (s.setPc t).mem = s.mem := rfl
@[simp] theorem State.setPc_regs : (s.setPc t).regs = s.regs := rfl
@[simp] theorem State.setPc_pc : (s.setPc t).pc = t := rfl
@[simp] theorem State.setPc_flags : (s.setPc t).flags = s.flags := rfl
@[simp] theorem State.setPc_run : (s.setPc t).run = s.run := rfl
@[simp] theorem State.setPc_cause : (s.setPc t).cause = s.cause := rfl
@[simp] theorem State.setPc_haltPc : (s.setPc t).haltPc = s.haltPc := rfl
@[simp] theorem State.setPc_haltOp : (s.setPc t).haltOp = s.haltOp := rfl
@[simp] theorem State.setPc_out : (s.setPc t).out = s.out := rfl
@[simp] theorem State.setPc_memRead : (s.setPc t).memRead x = s.memRead x := rfl
@[simp] theorem State.setPc_reg : (s.setPc t).reg j = s.reg j := rfl
@[simp] theorem State.setPc_sp : (s.setPc t).sp = s.sp := rfl

/-! ### setFlags -/

@[simp] theorem State.setFlags_cfg : (s.setFlags f).cfg = s.cfg := rfl
@[simp] theorem State.setFlags_mem : (s.setFlags f).mem = s.mem := rfl
@[simp] theorem State.setFlags_regs : (s.setFlags f).regs = s.regs := rfl
@[simp] theorem State.setFlags_pc : (s.setFlags f).pc = s.pc := rfl
@[simp] theorem State.setFlags_flags : (s.setFlags f).flags = f := rfl
@[simp] theorem State.setFlags_run : (s.setFlags f).run = s.run := rfl
@[simp] theorem State.setFlags_cause : (s.setFlags f).cause = s.cause := rfl
@[simp] theorem State.setFlags_haltPc : (s.setFlags f).haltPc = s.haltPc := rfl
@[simp] theorem State.setFlags_haltOp : (s.setFlags f).haltOp = s.haltOp := rfl
@[simp] theorem State.setFlags_out : (s.setFlags f).out = s.out := rfl
@[simp] theorem State.setFlags_memRead : (s.setFlags f).memRead x = s.memRead x := rfl
@[simp] theorem State.setFlags_reg : (s.setFlags f).reg j = s.reg j := rfl
@[simp] theorem State.setFlags_sp : (s.setFlags f).sp = s.sp := rfl

/-! ### emit -/

@[simp] theorem State.emit_cfg : (s.emit v).cfg = s.cfg := rfl
@[simp] theorem State.emit_mem : (s.emit v).mem = s.mem := rfl
@[simp] theorem State.emit_regs : (s.emit v).regs = s.regs := rfl
@[simp] theorem State.emit_pc : (s.emit v).pc = s.pc := rfl
@[simp] theorem State.emit_flags : (s.emit v).flags = s.flags := rfl
@[simp] theorem State.emit_run : (s.emit v).run = s.run := rfl
@[simp] theorem State.emit_cause : (s.emit v).cause = s.cause := rfl
@[simp] theorem State.emit_haltPc : (s.emit v).haltPc = s.haltPc := rfl
@[simp] theorem State.emit_haltOp : (s.emit v).haltOp = s.haltOp := rfl
@[simp] theorem State.emit_out : (s.emit v).out = s.out ++ [v] := rfl
@[simp] theorem State.emit_memRead : (s.emit v).memRead x = s.memRead x := rfl
@[simp] theorem State.emit_reg : (s.emit v).reg j = s.reg j := rfl
@[simp] theorem State.emit_sp : (s.emit v).sp = s.sp := rfl

/-! ### memWrite -/

@[simp] theorem State.memWrite_cfg : (s.memWrite a v).cfg = s.cfg := rfl
@[simp] theorem State.memWrite_mem : (s.memWrite a v).mem = s.mem.write a.toNat v := rfl
@[simp] theorem State.memWrite_regs : (s.memWrite a v).regs = s.regs := rfl
@[simp] theorem State.memWrite_pc : (s.memWrite a v).pc = s.pc := rfl
@[simp] theorem State.memWrite_flags : (s.memWrite a v).flags = s.flags := rfl
@[simp] theorem State.memWrite_run : (s.memWrite a v).run = s.run := rfl
@[simp] theorem State.memWrite_cause : (s.memWrite a v).cause = s.cause := rfl
@[simp] theorem State.memWrite_haltPc : (s.memWrite a v).haltPc = s.haltPc := rfl
@[simp] theorem State.memWrite_haltOp : (s.memWrite a v).haltOp = s.haltOp := rfl
@[simp] theorem State.memWrite_out : (s.memWrite a v).out = s.out := rfl
@[simp] theorem State.memWrite_reg : (s.memWrite a v).reg j = s.reg j := rfl
@[simp] theorem State.memWrite_sp : (s.memWrite a v).sp = s.sp := rfl

/-! ### halt -/

@[simp] theorem State.halt_cfg : (s.halt c op).cfg = s.cfg := rfl
@[simp] theorem State.halt_mem : (s.halt c op).mem = s.mem := rfl
@[simp] theorem State.halt_regs : (s.halt c op).regs = s.regs := rfl
@[simp] theorem State.halt_pc : (s.halt c op).pc = s.pc := rfl
@[simp] theorem State.halt_flags : (s.halt c op).flags = s.flags := rfl
@[simp] theorem State.halt_run : (s.halt c op).run = false := rfl
@[simp] theorem State.halt_cause : (s.halt c op).cause = c := rfl
@[simp] theorem State.halt_haltPc : (s.halt c op).haltPc = s.pc := rfl
@[simp] theorem State.halt_haltOp : (s.halt c op).haltOp = op := rfl
@[simp] theorem State.halt_out : (s.halt c op).out = s.out := rfl
@[simp] theorem State.halt_memRead : (s.halt c op).memRead x = s.memRead x := rfl
@[simp] theorem State.halt_reg : (s.halt c op).reg j = s.reg j := rfl
@[simp] theorem State.halt_sp : (s.halt c op).sp = s.sp := rfl

/-! ### Register reads -/

@[simp] theorem State.setReg_reg_same : (s.setReg i v).reg i = v := by
  simp [State.reg, State.setReg]

theorem State.setReg_reg_other (h : i ≠ j) : (s.setReg i v).reg j = s.reg j := by
  have : i.val ≠ j.val := fun e => h (Fin.ext e)
  simp [State.reg, State.setReg, this]

/-- A register read after a register write. -/
theorem State.setReg_reg : (s.setReg i v).reg j = if i = j then v else s.reg j := by
  split
  · next h => subst h; simp
  · next h => exact State.setReg_reg_other s i j v h

/-- The stack pointer is register 7 (10_state.md R12). -/
theorem State.sp_eq : s.sp = s.reg spIndex := rfl

theorem State.setSp_eq : s.setSp v = s.setReg spIndex v := rfl

theorem State.raise_eq : s.raise c = s.halt c (s.memRead s.pc) := rfl

end Sys2Proof.Machine
end

