-- ==== Sys2Proof/Laws/Operands.lean ====
section
/-! SUPPORT. Everything each operand form and each address computation can answer. -/

namespace Sys2Proof.Machine

/-- A register operand is the register it names, or the fault (30_encoding.md R62). -/
theorem regOperand_cases (a : Byte) :
    (∃ h : a.toNat < 8, regOperand a = .ok ⟨a.toNat, h⟩) ∨
      (8 ≤ a.toNat ∧ regOperand a = .error .regIndexRange) := by
  unfold regOperand
  split
  · next h => exact .inl ⟨h, rfl⟩
  · next h => exact .inr ⟨not_lt.1 h, rfl⟩

/-- An address is the integer computed, when it lies in its range, or the fault
(42_alu.md R117). -/
theorem addressIn_cases (lo : Nat) (c : Cause) (n : Int) :
    ((lo : Int) ≤ n ∧ n ≤ 255 ∧ ∃ t : Byte, addressIn lo c n = .ok t ∧ (t.toNat : Int) = n) ∨
      ((n < lo ∨ 255 < n) ∧ addressIn lo c n = .error c) := by
  unfold addressIn
  split
  · next h =>
    refine .inl ⟨h.1, h.2, _, rfl, ?_⟩
    rw [BitVec.toNat_ofInt]
    omega
  · next h => exact .inr ⟨by omega, rfl⟩

/-- The next or return address (10_state.md R17). -/
theorem State.pcPlus_cases (s : State) (n : Nat) :
    (s.pc.toNat + n ≤ 255 ∧ ∃ t : Byte, s.pcPlus n = .ok t ∧ t.toNat = s.pc.toNat + n) ∨
      (255 < s.pc.toNat + n ∧ s.pcPlus n = .error .memAddrRange) := by
  obtain ⟨_, h, t, ht, e⟩ | ⟨h, ht⟩ := addressIn_cases 0 .memAddrRange ((s.pc.toNat : Int) + n)
  · exact .inl ⟨by omega, t, ht, by omega⟩
  · exact .inr ⟨by omega, ht⟩

/-- The stack pointer a push leaves (43_stack.md R131). -/
theorem State.pushedSp_cases (s : State) :
    (s.cfg.stackFloor.toNat < s.sp.toNat ∧
        ∃ t : Byte, s.pushedSp = .ok t ∧ t.toNat + 1 = s.sp.toNat) ∨
      (s.sp.toNat ≤ s.cfg.stackFloor.toNat ∧ s.pushedSp = .error .spRange) := by
  have := s.sp.isLt
  obtain ⟨h, _, t, ht, e⟩ | ⟨h, ht⟩ :=
    addressIn_cases s.cfg.stackFloor.toNat .spRange ((s.sp.toNat : Int) - 1)
  · exact .inl ⟨by omega, t, ht, by omega⟩
  · exact .inr ⟨by omega, ht⟩

/-- The stack pointer a pop leaves (43_stack.md R131). -/
theorem State.poppedSp_cases (s : State) :
    (s.sp.toNat < 255 ∧ ∃ t : Byte, s.poppedSp = .ok t ∧ t.toNat = s.sp.toNat + 1) ∨
      (s.sp.toNat = 255 ∧ s.poppedSp = .error .spRange) := by
  have := s.sp.isLt
  obtain ⟨h, _, t, ht, e⟩ | ⟨h, ht⟩ := addressIn_cases 0 .spRange ((s.sp.toNat : Int) + 1)
  · exact .inl ⟨by omega, t, ht, by omega⟩
  · exact .inr ⟨by omega, ht⟩

/-- What CMP compares when the operands are addresses (42_alu.md R118). -/
theorem State.comparands_memAtOperand {s : State} (h : s.cfg.cmpSource = .memAtOperand)
    (a b : Byte) : s.comparands a b = .ok (s.memRead a, s.memRead b) := by
  simp [State.comparands, h]

/-- What CMP compares when the operands name registers (42_alu.md R118). -/
theorem State.comparands_reg {s : State} (h : s.cfg.cmpSource = .reg) (a b : Byte) :
    (∃ ha hb, s.comparands a b = .ok (s.reg ⟨a.toNat, ha⟩, s.reg ⟨b.toNat, hb⟩)) ∨
      ((8 ≤ a.toNat ∨ 8 ≤ b.toNat) ∧ s.comparands a b = .error .regIndexRange) := by
  unfold State.comparands
  rw [h]
  obtain ⟨ha, ea⟩ | ⟨ha, ea⟩ := regOperand_cases a
  · obtain ⟨hb, eb⟩ | ⟨hb, eb⟩ := regOperand_cases b
    · exact .inl ⟨ha, hb, by simp only [ea, eb]; rfl⟩
    · exact .inr ⟨.inr hb, by simp only [ea, eb]; rfl⟩
  · exact .inr ⟨.inl ha, by simp only [ea]; rfl⟩

end Sys2Proof.Machine
end

