-- ==== Sys2Proof/Laws/Exec.lean ====
section
/-! SUPPORT. Everything each meaning can do: the fault it takes, or the state it leaves. -/

namespace Sys2Proof.Machine

/-- The end of an instruction is always a next state (40_engine_cycle.md R91). -/
theorem commit_next (s : State) (e : Effect) :
    (∃ t, e = .ok t ∧ commit s e = .next t) ∨
      (∃ c, e = .error c ∧ commit s e = .next (s.raise c)) := by
  cases e with
  | ok t => exact .inl ⟨t, rfl, rfl⟩
  | error c => exact .inr ⟨c, rfl, rfl⟩

/-- LDI (41_load_and_output.md R100). -/
theorem execLdi_cases (a b : Byte) (s : State) :
    (8 ≤ a.toNat ∧ execLdi a b s = .next (s.raise .regIndexRange)) ∨
    (a.toNat < 8 ∧ 255 < s.pc.toNat + 3 ∧ execLdi a b s = .next (s.raise .memAddrRange)) ∨
    (∃ (h : a.toNat < 8) (n : Byte), s.pc.toNat + 3 ≤ 255 ∧ n.toNat = s.pc.toNat + 3 ∧
      execLdi a b s = .next ((s.setReg ⟨a.toNat, h⟩ b).setPc n)) := by
  unfold execLdi
  obtain ⟨ha, ea⟩ | ⟨ha, ea⟩ := regOperand_cases a
  · obtain ⟨hp, n, ep, en⟩ | ⟨hp, ep⟩ := s.pcPlus_cases 3
    · exact .inr (.inr ⟨ha, n, hp, en, by rw [ea, ep]; rfl⟩)
    · exact .inr (.inl ⟨ha, hp, by rw [ea, ep]; rfl⟩)
  · exact .inl ⟨ha, by rw [ea]; rfl⟩

/-- PRN (41_load_and_output.md R103). -/
theorem execPrn_cases (a : Byte) (s : State) :
    (8 ≤ a.toNat ∧ execPrn a s = .next (s.raise .regIndexRange)) ∨
    (a.toNat < 8 ∧ 255 < s.pc.toNat + 2 ∧ execPrn a s = .next (s.raise .memAddrRange)) ∨
    (∃ (h : a.toNat < 8) (n : Byte), s.pc.toNat + 2 ≤ 255 ∧ n.toNat = s.pc.toNat + 2 ∧
      execPrn a s = .next ((s.emit (s.reg ⟨a.toNat, h⟩)).setPc n)) := by
  unfold execPrn
  obtain ⟨ha, ea⟩ | ⟨ha, ea⟩ := regOperand_cases a
  · obtain ⟨hp, n, ep, en⟩ | ⟨hp, ep⟩ := s.pcPlus_cases 2
    · exact .inr (.inr ⟨ha, n, hp, en, by rw [ea, ep]; rfl⟩)
    · exact .inr (.inl ⟨ha, hp, by rw [ea, ep]; rfl⟩)
  · exact .inl ⟨ha, by rw [ea]; rfl⟩

/-- MUL (42_alu.md R115). -/
theorem execMul_cases (a b : Byte) (s : State) :
    ((8 ≤ a.toNat ∨ 8 ≤ b.toNat) ∧ execMul a b s = .next (s.raise .regIndexRange)) ∨
    (a.toNat < 8 ∧ b.toNat < 8 ∧ 255 < s.pc.toNat + 3 ∧
      execMul a b s = .next (s.raise .memAddrRange)) ∨
    (∃ (ha : a.toNat < 8) (hb : b.toNat < 8) (n : Byte), s.pc.toNat + 3 ≤ 255 ∧
      n.toNat = s.pc.toNat + 3 ∧
      execMul a b s = .next ((s.setReg ⟨a.toNat, ha⟩
        (aluMul (s.reg ⟨a.toNat, ha⟩) (s.reg ⟨b.toNat, hb⟩))).setPc n)) := by
  unfold execMul
  obtain ⟨ha, ea⟩ | ⟨ha, ea⟩ := regOperand_cases a
  · obtain ⟨hb, eb⟩ | ⟨hb, eb⟩ := regOperand_cases b
    · obtain ⟨hp, n, ep, en⟩ | ⟨hp, ep⟩ := s.pcPlus_cases 3
      · exact .inr (.inr ⟨ha, hb, n, hp, en, by rw [ea, eb, ep]; rfl⟩)
      · exact .inr (.inl ⟨ha, hb, hp, by rw [ea, eb, ep]; rfl⟩)
    · exact .inl ⟨.inr hb, by rw [ea, eb]; rfl⟩
  · exact .inl ⟨.inl ha, by rw [ea]; rfl⟩

/-- CMP: what it answers when its two values are `u` and `v` (42_alu.md R118). -/
theorem execCmp_of_ok {a b : Byte} {s : State} {u v : Byte}
    (h : s.comparands a b = .ok (u, v)) :
    (255 < s.pc.toNat + 3 ∧ execCmp a b s = .next (s.raise .memAddrRange)) ∨
    (∃ n : Byte, s.pc.toNat + 3 ≤ 255 ∧ n.toNat = s.pc.toNat + 3 ∧
      execCmp a b s = .next ((s.setFlags (aluCmp u v)).setPc n)) := by
  unfold execCmp
  obtain ⟨hp, n, ep, en⟩ | ⟨hp, ep⟩ := s.pcPlus_cases 3
  · exact .inr ⟨n, hp, en, by rw [h, ep]; rfl⟩
  · exact .inl ⟨hp, by rw [h, ep]; rfl⟩

/-- CMP under `MEM_AT_OPERAND` (42_alu.md R118). -/
theorem execCmp_memAtOperand_cases (a b : Byte) {s : State}
    (hs : s.cfg.cmpSource = .memAtOperand) :
    (255 < s.pc.toNat + 3 ∧ execCmp a b s = .next (s.raise .memAddrRange)) ∨
    (∃ n : Byte, s.pc.toNat + 3 ≤ 255 ∧ n.toNat = s.pc.toNat + 3 ∧
      execCmp a b s = .next ((s.setFlags (aluCmp (s.memRead a) (s.memRead b))).setPc n)) :=
  execCmp_of_ok (State.comparands_memAtOperand hs a b)

/-- CMP under `REG` (42_alu.md R118). -/
theorem execCmp_reg_cases (a b : Byte) {s : State} (hs : s.cfg.cmpSource = .reg) :
    ((8 ≤ a.toNat ∨ 8 ≤ b.toNat) ∧ execCmp a b s = .next (s.raise .regIndexRange)) ∨
    (a.toNat < 8 ∧ b.toNat < 8 ∧ 255 < s.pc.toNat + 3 ∧
      execCmp a b s = .next (s.raise .memAddrRange)) ∨
    (∃ (ha : a.toNat < 8) (hb : b.toNat < 8) (n : Byte), s.pc.toNat + 3 ≤ 255 ∧
      n.toNat = s.pc.toNat + 3 ∧
      execCmp a b s = .next ((s.setFlags
        (aluCmp (s.reg ⟨a.toNat, ha⟩) (s.reg ⟨b.toNat, hb⟩))).setPc n)) := by
  obtain ⟨ha, hb, e⟩ | ⟨h, e⟩ := State.comparands_reg hs a b
  · obtain ⟨hp, ex⟩ | ⟨n, hp, en, ex⟩ := execCmp_of_ok e
    · exact .inr (.inl ⟨ha, hb, hp, ex⟩)
    · exact .inr (.inr ⟨ha, hb, n, hp, en, ex⟩)
  · exact .inl ⟨h, by unfold execCmp; rw [e]; rfl⟩

/-- PUSH (43_stack.md R132). -/
theorem execPush_cases (a : Byte) (s : State) :
    (8 ≤ a.toNat ∧ execPush a s = .next (s.raise .regIndexRange)) ∨
    (a.toNat < 8 ∧ s.sp.toNat ≤ s.cfg.stackFloor.toNat ∧
      execPush a s = .next (s.raise .spRange)) ∨
    (a.toNat < 8 ∧ s.cfg.stackFloor.toNat < s.sp.toNat ∧ 255 < s.pc.toNat + 2 ∧
      execPush a s = .next (s.raise .memAddrRange)) ∨
    (∃ (h : a.toNat < 8) (top n : Byte), s.cfg.stackFloor.toNat < s.sp.toNat ∧
      s.pc.toNat + 2 ≤ 255 ∧ top.toNat + 1 = s.sp.toNat ∧ n.toNat = s.pc.toNat + 2 ∧
      execPush a s = .next (((s.setReg spIndex top).memWrite top
        ((s.setReg spIndex top).reg ⟨a.toNat, h⟩)).setPc n)) := by
  unfold execPush
  obtain ⟨ha, ea⟩ | ⟨ha, ea⟩ := regOperand_cases a
  · obtain ⟨hs, top, es, et⟩ | ⟨hs, es⟩ := s.pushedSp_cases
    · obtain ⟨hp, n, ep, en⟩ | ⟨hp, ep⟩ := s.pcPlus_cases 2
      · exact .inr (.inr (.inr ⟨ha, top, n, hs, hp, et, en, by rw [ea, es, ep]; rfl⟩))
      · exact .inr (.inr (.inl ⟨ha, hs, hp, by rw [ea, es, ep]; rfl⟩))
    · exact .inr (.inl ⟨ha, hs, by rw [ea, es]; rfl⟩)
  · exact .inl ⟨ha, by rw [ea]; rfl⟩

/-- POP, where `s₁` is the state after the write of the popped byte (43_stack.md R134). -/
theorem execPop_cases (a : Byte) (s : State) :
    (8 ≤ a.toNat ∧ execPop a s = .next (s.raise .regIndexRange)) ∨
    (∃ (h : a.toNat < 8) (s₁ : State), s₁ = s.setReg ⟨a.toNat, h⟩ (s.memRead s.sp) ∧
      ((s₁.sp.toNat = 255 ∧ execPop a s = .next (s.raise .spRange)) ∨
      (s₁.sp.toNat < 255 ∧ 255 < s.pc.toNat + 2 ∧ execPop a s = .next (s.raise .memAddrRange)) ∨
      (∃ top n : Byte, s₁.sp.toNat < 255 ∧ s.pc.toNat + 2 ≤ 255 ∧ top.toNat = s₁.sp.toNat + 1 ∧
        n.toNat = s.pc.toNat + 2 ∧
        execPop a s = .next ((s₁.setReg spIndex top).setPc n)))) := by
  unfold execPop
  obtain ⟨ha, ea⟩ | ⟨ha, ea⟩ := regOperand_cases a
  · refine .inr ⟨ha, _, rfl, ?_⟩
    obtain ⟨hs, top, es, et⟩ | ⟨hs, es⟩ :=
      (s.setReg ⟨a.toNat, ha⟩ (s.memRead s.sp)).poppedSp_cases
    · obtain ⟨hp, n, ep, en⟩ | ⟨hp, ep⟩ := s.pcPlus_cases 2
      · refine .inr (.inr ⟨top, n, hs, hp, et, en, ?_⟩)
        simp only [ea, ep, bind, Except.bind, es]; rfl
      · refine .inr (.inl ⟨hs, hp, ?_⟩)
        simp only [ea, ep, bind, Except.bind, es]; rfl
    · refine .inl ⟨hs, ?_⟩
      simp only [ea, bind, Except.bind, es]; rfl
  · exact .inl ⟨ha, by rw [ea]; rfl⟩

/-- CALL (43_stack.md R136). -/
theorem execCall_cases (a : Byte) (s : State) :
    (8 ≤ a.toNat ∧ execCall a s = .next (s.raise .regIndexRange)) ∨
    (a.toNat < 8 ∧ s.sp.toNat ≤ s.cfg.stackFloor.toNat ∧
      execCall a s = .next (s.raise .spRange)) ∨
    (a.toNat < 8 ∧ s.cfg.stackFloor.toNat < s.sp.toNat ∧ 255 < s.pc.toNat + 2 ∧
      execCall a s = .next (s.raise .memAddrRange)) ∨
    (∃ (h : a.toNat < 8) (top back : Byte), s.cfg.stackFloor.toNat < s.sp.toNat ∧
      s.pc.toNat + 2 ≤ 255 ∧ top.toNat + 1 = s.sp.toNat ∧ back.toNat = s.pc.toNat + 2 ∧
      execCall a s = .next (((s.setReg spIndex top).memWrite top back).setPc
        ((s.setReg spIndex top).reg ⟨a.toNat, h⟩))) := by
  unfold execCall
  obtain ⟨ha, ea⟩ | ⟨ha, ea⟩ := regOperand_cases a
  · obtain ⟨hs, top, es, et⟩ | ⟨hs, es⟩ := s.pushedSp_cases
    · obtain ⟨hp, n, ep, en⟩ | ⟨hp, ep⟩ := s.pcPlus_cases 2
      · exact .inr (.inr (.inr ⟨ha, top, n, hs, hp, et, en, by rw [ea, es, ep]; rfl⟩))
      · exact .inr (.inr (.inl ⟨ha, hs, hp, by rw [ea, es, ep]; rfl⟩))
    · exact .inr (.inl ⟨ha, hs, by rw [ea, es]; rfl⟩)
  · exact .inl ⟨ha, by rw [ea]; rfl⟩

/-- RET (43_stack.md R138). -/
theorem execRet_cases (s : State) :
    (s.sp.toNat = 255 ∧ execRet s = .next (s.raise .spRange)) ∨
    (∃ top : Byte, s.sp.toNat < 255 ∧ top.toNat = s.sp.toNat + 1 ∧
      execRet s = .next ((s.setReg spIndex top).setPc (s.memRead s.sp))) := by
  unfold execRet
  obtain ⟨hs, top, es, et⟩ | ⟨hs, es⟩ := s.poppedSp_cases
  · exact .inr ⟨top, hs, et, by rw [es]; rfl⟩
  · exact .inl ⟨hs, by rw [es]; rfl⟩

/-- A jump, taken or not (44_branch.md R150). -/
theorem jumpIf_cases (taken : Bool) (a : Byte) (s : State) :
    (8 ≤ a.toNat ∧ jumpIf taken a s = .next (s.raise .regIndexRange)) ∨
    (∃ h : a.toNat < 8, taken = true ∧ jumpIf taken a s = .next (s.setPc (s.reg ⟨a.toNat, h⟩))) ∨
    (a.toNat < 8 ∧ taken = false ∧ 255 < s.pc.toNat + 2 ∧
      jumpIf taken a s = .next (s.raise .memAddrRange)) ∨
    (∃ n : Byte, a.toNat < 8 ∧ taken = false ∧ s.pc.toNat + 2 ≤ 255 ∧
      n.toNat = s.pc.toNat + 2 ∧ jumpIf taken a s = .next (s.setPc n)) := by
  unfold jumpIf
  obtain ⟨ha, ea⟩ | ⟨ha, ea⟩ := regOperand_cases a
  · cases taken with
    | true => exact .inr (.inl ⟨ha, rfl, by rw [ea]; rfl⟩)
    | false =>
      obtain ⟨hp, n, ep, en⟩ | ⟨hp, ep⟩ := s.pcPlus_cases 2
      · exact .inr (.inr (.inr ⟨n, ha, rfl, hp, en, by rw [ea, ep]; rfl⟩))
      · exact .inr (.inr (.inl ⟨ha, rfl, hp, by rw [ea, ep]; rfl⟩))
  · exact .inl ⟨ha, by rw [ea]; rfl⟩

end Sys2Proof.Machine
end

