-- ==== Sys2Proof/Laws/Memory.lean ====
section
/-! SUPPORT. Read after write, and that memory operations keep the canonical form. -/

namespace Sys2Proof.Machine

@[simp] theorem Memory.read_nil (a : Nat) : Memory.read [] a = Memory.unlisted := rfl

theorem Memory.read_cons (k : Nat) (w : Byte) (rest : Memory) (a : Nat) :
    Memory.read ((k, w) :: rest) a = if k = a then w else Memory.read rest a := rfl

theorem Memory.wfFrom_cons (lo k : Nat) (w : Byte) (rest : Memory) :
    Memory.wfFrom lo ((k, w) :: rest) = true ↔
      lo ≤ k ∧ k < memSize ∧ w ≠ Memory.unlisted ∧ Memory.wfFrom (k + 1) rest = true := by
  simp [Memory.wfFrom, and_assoc]

/-- A canonical list may be read as one of cells from a lower address on. -/
theorem Memory.wfFrom_mono {lo hi : Nat} (h : lo ≤ hi) :
    ∀ {m : Memory}, Memory.wfFrom hi m = true → Memory.wfFrom lo m = true
  | [], _ => rfl
  | (k, w) :: rest, hm => by
    rw [Memory.wfFrom_cons] at hm ⊢
    exact ⟨h.trans hm.1, hm.2⟩

/-- A canonical list of cells from `lo` on lists nothing below `lo`. -/
theorem Memory.read_below {a : Nat} :
    ∀ {lo : Nat} {m : Memory}, Memory.wfFrom lo m = true → a < lo → m.read a = Memory.unlisted
  | _, [], _, _ => rfl
  | lo, (k, w) :: rest, hm, ha => by
    rw [Memory.wfFrom_cons] at hm
    rw [Memory.read_cons, if_neg (by omega)]
    exact Memory.read_below hm.2.2.2 (by omega)

/-- `Memory.cons` before higher cells: what each address reads. -/
theorem Memory.read_consCell {a : Nat} {v : Byte} {rest : Memory} (x : Nat)
    (h : rest.read a = Memory.unlisted) :
    (Memory.cons a v rest).read x = if a = x then v else rest.read x := by
  unfold Memory.cons
  split
  · next hv =>
    split
    · next hx => rw [← hx, h, hv]
    · rfl
  · rfl

theorem Memory.wfFrom_consCell {lo a : Nat} {v : Byte} {rest : Memory} (hl : lo ≤ a)
    (ha : a < memSize) (h : Memory.wfFrom (a + 1) rest = true) :
    Memory.wfFrom lo (Memory.cons a v rest) = true := by
  unfold Memory.cons
  split
  · exact Memory.wfFrom_mono (by omega) h
  · next hv => exact (Memory.wfFrom_cons _ _ _ _).2 ⟨hl, ha, hv, h⟩

/-- What every address reads after a write to a canonical memory (20_memory.md R40). -/
theorem Memory.read_write (a : Nat) (v : Byte) (x : Nat) :
    ∀ {lo : Nat} {m : Memory}, Memory.wfFrom lo m = true →
      (m.write a v).read x = if a = x then v else m.read x
  | _, [], _ => Memory.read_consCell x rfl
  | lo, (k, w) :: rest, hm => by
    have hr := ((Memory.wfFrom_cons _ _ _ _).1 hm).2.2.2
    have hk : Memory.wfFrom k ((k, w) :: rest) = true :=
      (Memory.wfFrom_cons _ _ _ _).2 ⟨le_refl k, ((Memory.wfFrom_cons _ _ _ _).1 hm).2⟩
    unfold Memory.write
    split
    · next h1 => exact Memory.read_consCell x (Memory.read_below hk h1)
    · split
      · next h2 =>
        subst h2
        rw [Memory.read_consCell x (Memory.read_below hr (Nat.lt_succ_self _)), Memory.read_cons]
        split <;> rfl
      · next h2 =>
        rw [Memory.read_cons, Memory.read_cons, Memory.read_write a v x hr]
        split <;> split <;> simp_all

/-- A write leaves what every other address reads, in any list of cells. -/
theorem Memory.read_write_other {a x : Nat} (v : Byte) (h : a ≠ x) :
    ∀ m : Memory, (m.write a v).read x = m.read x
  | [] => by
    unfold Memory.write Memory.cons
    split
    · rfl
    · rw [Memory.read_cons, if_neg h]
  | (k, w) :: rest => by
    unfold Memory.write Memory.cons
    split
    · split
      · rfl
      · rw [Memory.read_cons, if_neg h]
    · split
      · next hk =>
        subst hk
        split <;> simp only [Memory.read_cons, if_neg h]
      · rw [Memory.read_cons, Memory.read_cons, Memory.read_write_other v h rest]

/-- A write keeps the canonical form of cells from `lo` on. -/
theorem Memory.wfFrom_write {a : Nat} (v : Byte) (ha : a < memSize) :
    ∀ {lo : Nat} {m : Memory}, lo ≤ a → Memory.wfFrom lo m = true →
      Memory.wfFrom lo (m.write a v) = true
  | _, [], hl, _ => Memory.wfFrom_consCell hl ha rfl
  | lo, (k, w) :: rest, hl, hm => by
    obtain ⟨h1, h2, h3, h4⟩ := (Memory.wfFrom_cons _ _ _ _).1 hm
    unfold Memory.write
    split
    · next h =>
      exact Memory.wfFrom_consCell hl ha ((Memory.wfFrom_cons _ _ _ _).2 ⟨by omega, h2, h3, h4⟩)
    · split
      · next h => subst h; exact Memory.wfFrom_consCell hl ha h4
      · exact (Memory.wfFrom_cons _ _ _ _).2
          ⟨h1, h2, h3, Memory.wfFrom_write v ha (by omega) h4⟩

/-- Every write of an address below `memSize` keeps the canonical form. -/
theorem Memory.wf_write {m : Memory} {a : Nat} (v : Byte) (ha : a < memSize) (h : m.wf = true) :
    (m.write a v).wf = true :=
  Memory.wfFrom_write v ha (Nat.zero_le a) h

/-- Memory after reset is in its canonical form. -/
theorem Memory.wf_reset (c : Config) : (State.resetWith c).mem.wf = true := rfl

/-- `MemRead` after `MemWrite` (20_memory.md R40). -/
theorem State.memWrite_memRead {s : State} (h : s.mem.wf = true) (a v x : Byte) :
    (s.memWrite a v).memRead x = if a = x then v else s.memRead x := by
  unfold State.memRead
  rw [State.memWrite_mem, Memory.read_write a.toNat v x.toNat h]
  simp [BitVec.toNat_eq]

/-- `MemWrite` leaves every other cell (20_memory.md R40). -/
theorem State.memWrite_memRead_other (s : State) {a x : Byte} (v : Byte) (h : a ≠ x) :
    (s.memWrite a v).memRead x = s.memRead x :=
  Memory.read_write_other v (fun e => h (BitVec.eq_of_toNat_eq e)) s.mem

/-- `MemWrite` keeps the canonical form. -/
theorem State.memWrite_wf {s : State} (h : s.mem.wf = true) (a v : Byte) :
    (s.memWrite a v).mem.wf = true :=
  Memory.wf_write v a.isLt h

end Sys2Proof.Machine
end

