-- ==== Sys2Proof/Laws/PerInstr.lean ====
section
/-! SUPPORT. A statement made instruction by instruction: the encoding begins with the row's opcode
byte and has the row's length (30_encoding.md R60, R70). -/

namespace Sys2Proof.Laws.EncodedShape

/-- The first byte is the row's encoding, and the length is the row's. -/
def Statement (i : Instr) : Prop :=
  (encode i).head? = some i.opcode.encoding ∧ (encode i).length = i.opcode.length

theorem hlt : Statement .hlt := ⟨rfl, rfl⟩
theorem ldi (a b : Byte) : Statement (.ldi a b) := ⟨rfl, rfl⟩
theorem prn (a : Byte) : Statement (.prn a) := ⟨rfl, rfl⟩
theorem mul (a b : Byte) : Statement (.mul a b) := ⟨rfl, rfl⟩
theorem push (a : Byte) : Statement (.push a) := ⟨rfl, rfl⟩
theorem pop (a : Byte) : Statement (.pop a) := ⟨rfl, rfl⟩
theorem call (a : Byte) : Statement (.call a) := ⟨rfl, rfl⟩
theorem ret : Statement .ret := ⟨rfl, rfl⟩
theorem cmp (a b : Byte) : Statement (.cmp a b) := ⟨rfl, rfl⟩
theorem jmp (a : Byte) : Statement (.jmp a) := ⟨rfl, rfl⟩
theorem jeq (a : Byte) : Statement (.jeq a) := ⟨rfl, rfl⟩
theorem jne (a : Byte) : Statement (.jne a) := ⟨rfl, rfl⟩

end Sys2Proof.Laws.EncodedShape
end

