-- ==== Sys2Proof/Laws/Step.lean ====
section
/-! SUPPORT. The opcode lookup, the bytes a fetch sees, and everything a step can do. -/

namespace Sys2Proof

/-- A byte selects a row exactly when it equals the row's encoding (30_encoding.md R65). -/
theorem Opcode.ofByte_eq_some_iff (op : Byte) (o : Opcode) :
    Opcode.ofByte op = some o ↔ o.encoding = op := by
  constructor
  · intro h
    simpa using List.find?_some h
  · rintro rfl
    cases o <;> rfl

/-- A byte selects no row exactly when it equals no row's encoding (30_encoding.md R68). -/
theorem Opcode.ofByte_eq_none_iff (op : Byte) :
    Opcode.ofByte op = none ↔ ∀ o : Opcode, o.encoding ≠ op := by
  constructor
  · intro h o e
    rw [(Opcode.ofByte_eq_some_iff op o).2 e] at h
    cases h
  · intro h
    cases e : Opcode.ofByte op with
    | none => rfl
    | some o => exact absurd ((Opcode.ofByte_eq_some_iff op o).1 e) (h o)

/-- The instruction of a row with operand bytes `a` and `b`, as many as it has. -/
def Opcode.withOperands : Opcode → Byte → Byte → Instr
  | .hlt, _, _ => .hlt
  | .ldi, a, b => .ldi a b
  | .prn, a, _ => .prn a
  | .mul, a, b => .mul a b
  | .push, a, _ => .push a
  | .pop, a, _ => .pop a
  | .call, a, _ => .call a
  | .ret, _, _ => .ret
  | .cmp, a, b => .cmp a b
  | .jmp, a, _ => .jmp a
  | .jeq, a, _ => .jeq a
  | .jne, a, _ => .jne a

@[simp] theorem Opcode.withOperands_opcode (o : Opcode) (a b : Byte) :
    (o.withOperands a b).opcode = o := by
  cases o <;> rfl

namespace Machine

theorem State.byteAt_of_le {s : State} {n : Nat} (h : n ≤ 255) :
    s.byteAt n = some (s.mem.read n) := if_pos (Nat.lt_succ_of_le h)

theorem State.byteAt_of_gt {s : State} {n : Nat} (h : 255 < n) : s.byteAt n = none :=
  if_neg (not_lt.2 h)

/-- A byte read at `pc + k`, where memory reaches that far. -/
theorem State.memRead_pc_add {s : State} {k : Nat} (h : s.pc.toNat + k ≤ 255) :
    s.memRead (s.pc + BitVec.ofNat 8 k) = s.mem.read (s.pc.toNat + k) := by
  unfold State.memRead
  congr 1
  rw [BitVec.toNat_add, BitVec.toNat_ofNat]
  omega

/-- The bytes of a fetch where three remain (40_engine_cycle.md R83). -/
theorem State.fetchBytes_three {s : State} (h : s.pc.toNat + 2 ≤ 255) :
    s.fetchBytes = [s.memRead s.pc, s.memRead (s.pc + 1#8), s.memRead (s.pc + 2#8)] := by
  rw [State.memRead_pc_add (k := 1) (by omega), State.memRead_pc_add (k := 2) h]
  simp only [State.fetchBytes, State.bytesFrom, State.byteAt_of_le (s := s) (n := s.pc.toNat) (by omega),
    State.byteAt_of_le (s := s) (n := s.pc.toNat + 1) (by omega),
    State.byteAt_of_le (s := s) (n := s.pc.toNat + 1 + 1) (by omega)]
  rfl

/-- The bytes of a fetch at address 254 (40_engine_cycle.md R83). -/
theorem State.fetchBytes_two {s : State} (h : s.pc.toNat = 254) :
    s.fetchBytes = [s.memRead s.pc, s.memRead (s.pc + 1#8)] := by
  rw [State.memRead_pc_add (k := 1) (by omega)]
  simp only [State.fetchBytes, State.bytesFrom, State.byteAt_of_le (s := s) (n := s.pc.toNat) (by omega),
    State.byteAt_of_le (s := s) (n := s.pc.toNat + 1) (by omega),
    State.byteAt_of_gt (s := s) (n := s.pc.toNat + 1 + 1) (by omega)]
  rfl

/-- The bytes of a fetch at address 255 (40_engine_cycle.md R83). -/
theorem State.fetchBytes_one {s : State} (h : s.pc.toNat = 255) :
    s.fetchBytes = [s.memRead s.pc] := by
  simp only [State.fetchBytes, State.bytesFrom, State.byteAt_of_le (s := s) (n := s.pc.toNat) (by omega),
    State.byteAt_of_gt (s := s) (n := s.pc.toNat + 1) (by omega)]
  rfl

/-- Fetch and decode as 40_engine_cycle.md R91 writes them. -/
theorem State.fetchInstr_eq (s : State) :
    s.fetchInstr =
      match Opcode.ofByte (s.memRead s.pc) with
      | none => .error .invalidOpcode
      | some o =>
        if 255 < s.pc.toNat + o.operandCount then .error .memAddrRange
        else .ok (o.withOperands (s.memRead (s.pc + 1#8)) (s.memRead (s.pc + 2#8))) := by
  have hpc := s.pc.isLt
  unfold State.fetchInstr
  obtain h | h | h : s.pc.toNat + 2 ≤ 255 ∨ s.pc.toNat = 254 ∨ s.pc.toNat = 255 := by omega
  · rw [State.fetchBytes_three h]
    cases e : Opcode.ofByte (s.memRead s.pc) with
    | none => simp [decode, e, decodeCause]
    | some o =>
      have h0 : s.pc.toNat ≤ 255 := by omega
      have h1 : ¬ 255 < s.pc.toNat + 1 := by omega
      have h2 : ¬ 255 < s.pc.toNat + 2 := by omega
      simp only [decode, e]
      cases o <;>
        simp [Opcode.takeOperands, takeNone, takeOne, takeTwo, Opcode.operandCount,
          Opcode.withOperands, h0, h1, h2]
  · rw [State.fetchBytes_two h]
    cases e : Opcode.ofByte (s.memRead s.pc) with
    | none => simp [decode, e, decodeCause]
    | some o =>
      simp only [decode, e, h]
      cases o <;>
        simp [Opcode.takeOperands, takeNone, takeOne, takeTwo, Opcode.operandCount,
          Opcode.withOperands, decodeCause]
  · rw [State.fetchBytes_one h]
    cases e : Opcode.ofByte (s.memRead s.pc) with
    | none => simp [decode, e, decodeCause]
    | some o =>
      simp only [decode, e, h]
      cases o <;>
        simp [Opcode.takeOperands, takeNone, takeOne, takeTwo, Opcode.operandCount,
          Opcode.withOperands, decodeCause]

/-- A halted machine stays as it is (40_engine_cycle.md R88). -/
theorem step_halted {s : State} (h : s.run = false) : step s = .next s := by
  simp [step, h]

/-- Everything a cycle of a running machine can do: the fault of an unknown opcode, the fault of an
operand byte beyond memory, or the instruction's own rule (40_engine_cycle.md R91). -/
theorem step_cases {s : State} (h : s.run = true) :
    ((∀ o : Opcode, o.encoding ≠ s.memRead s.pc) ∧ step s = .next (s.raise .invalidOpcode)) ∨
    (∃ o : Opcode, o.encoding = s.memRead s.pc ∧
      ((255 < s.pc.toNat + o.operandCount ∧ step s = .next (s.raise .memAddrRange)) ∨
      (s.pc.toNat + o.operandCount ≤ 255 ∧
        step s =
          exec (o.withOperands (s.memRead (s.pc + 1#8)) (s.memRead (s.pc + 2#8))) s))) := by
  unfold step
  rw [if_pos h, State.fetchInstr_eq]
  cases e : Opcode.ofByte (s.memRead s.pc) with
  | none => exact .inl ⟨(Opcode.ofByte_eq_none_iff _).1 e, rfl⟩
  | some o =>
    refine .inr ⟨o, (Opcode.ofByte_eq_some_iff _ o).1 e, ?_⟩
    by_cases hp : 255 < s.pc.toNat + o.operandCount
    · exact .inl ⟨hp, by simp only [hp, if_true]⟩
    · exact .inr ⟨not_lt.1 hp, by simp only [hp, if_false]⟩

/-- The shapes of what one cycle of a running machine in `s` leaves, with the opcode each goes with.
Every rule about what a cycle may change is a case analysis of these. -/
inductive StepEffect (s : State) : State → Prop where
  /-- A fault (60_exceptions.md R166). -/
  | fault (c : Cause) (hn : c ≠ .none) (hh : c ≠ .hlt) : StepEffect s (s.raise c)
  /-- HLT. -/
  | hlt (ho : s.memRead s.pc = Opcode.hlt.encoding) : StepEffect s (s.halt .hlt 0x01#8)
  /-- LDI and MUL: one register, the one `a` names. -/
  | writeReg (o : Opcode) (ho : s.memRead s.pc = o.encoding) (hk : o = .ldi ∨ o = .mul)
      (i : RegIndex) (hi : i.val = (s.memRead (s.pc + 1#8)).toNat) (v n : Byte) :
      StepEffect s ((s.setReg i v).setPc n)
  /-- PRN: one byte emitted. -/
  | emit (ho : s.memRead s.pc = Opcode.prn.encoding) (v n : Byte) :
      StepEffect s ((s.emit v).setPc n)
  /-- CMP: the flags a compare leaves. -/
  | compare (ho : s.memRead s.pc = Opcode.cmp.encoding) (u v n : Byte) :
      StepEffect s ((s.setFlags (aluCmp u v)).setPc n)
  /-- PUSH and CALL: one cell, just below the stack pointer, which moves there. -/
  | store (o : Opcode) (ho : s.memRead s.pc = o.encoding) (hk : o = .push ∨ o = .call)
      (top : Byte) (ht : top.toNat + 1 = s.sp.toNat) (v n : Byte) :
      StepEffect s (((s.setReg spIndex top).memWrite top v).setPc n)
  /-- POP: the register `a` names, and the stack pointer. -/
  | pop (ho : s.memRead s.pc = Opcode.pop.encoding)
      (i : RegIndex) (hi : i.val = (s.memRead (s.pc + 1#8)).toNat) (v top n : Byte) :
      StepEffect s (((s.setReg i v).setReg spIndex top).setPc n)
  /-- RET: the stack pointer. -/
  | ret (ho : s.memRead s.pc = Opcode.ret.encoding) (top n : Byte) :
      StepEffect s ((s.setReg spIndex top).setPc n)
  /-- JMP, JEQ and JNE: the program counter alone. -/
  | jump (o : Opcode) (ho : s.memRead s.pc = o.encoding) (hk : o = .jmp ∨ o = .jeq ∨ o = .jne)
      (n : Byte) : StepEffect s (s.setPc n)

/-- A jump's effect, whichever of the three it is. -/
theorem stepEffect_jumpIf {s t : State} {taken : Bool} {a : Byte} {o : Opcode}
    (ho : s.memRead s.pc = o.encoding) (hk : o = .jmp ∨ o = .jeq ∨ o = .jne)
    (h : jumpIf taken a s = .next t) : StepEffect s t := by
  obtain ⟨_, e⟩ | ⟨_, _, e⟩ | ⟨_, _, _, e⟩ | ⟨n, _, _, _, _, e⟩ := jumpIf_cases taken a s <;>
    cases e.symm.trans h
  · exact .fault _ (by decide) (by decide)
  · exact .jump o ho hk _
  · exact .fault _ (by decide) (by decide)
  · exact .jump o ho hk _

/-- Everything an instruction at `pc` can do, in the shapes of `StepEffect`. -/
theorem stepEffect_exec {s t : State} {o : Opcode} (ho : s.memRead s.pc = o.encoding)
    (h : exec (o.withOperands (s.memRead (s.pc + 1#8)) (s.memRead (s.pc + 2#8))) s = .next t) :
    StepEffect s t := by
  generalize ha : s.memRead (s.pc + 1#8) = a at h
  generalize s.memRead (s.pc + 2#8) = b at h
  have fault {c : Cause} (hn : c ≠ .none) (hh : c ≠ .hlt) : StepEffect s (s.raise c) :=
    .fault c hn hh
  cases o with
  | hlt => cases h; exact .hlt ho
  | ldi =>
    obtain ⟨_, e⟩ | ⟨_, _, e⟩ | ⟨_, _, _, _, e⟩ := execLdi_cases a b s <;> cases e.symm.trans h
    · exact fault (by decide) (by decide)
    · exact fault (by decide) (by decide)
    · exact .writeReg .ldi ho (.inl rfl) _ (by rw [ha]) _ _
  | prn =>
    obtain ⟨_, e⟩ | ⟨_, _, e⟩ | ⟨_, _, _, _, e⟩ := execPrn_cases a s <;> cases e.symm.trans h
    · exact fault (by decide) (by decide)
    · exact fault (by decide) (by decide)
    · exact .emit ho _ _
  | mul =>
    obtain ⟨_, e⟩ | ⟨_, _, _, e⟩ | ⟨_, _, _, _, _, e⟩ := execMul_cases a b s <;>
      cases e.symm.trans h
    · exact fault (by decide) (by decide)
    · exact fault (by decide) (by decide)
    · exact .writeReg .mul ho (.inr rfl) _ (by rw [ha]) _ _
  | push =>
    obtain ⟨_, e⟩ | ⟨_, _, e⟩ | ⟨_, _, _, e⟩ | ⟨_, top, _, _, _, ht, _, e⟩ := execPush_cases a s <;>
      cases e.symm.trans h
    · exact fault (by decide) (by decide)
    · exact fault (by decide) (by decide)
    · exact fault (by decide) (by decide)
    · exact .store .push ho (.inl rfl) top ht _ _
  | pop =>
    obtain ⟨_, e⟩ | ⟨_, _, rfl, ⟨_, e⟩ | ⟨_, _, e⟩ | ⟨_, _, _, _, _, _, e⟩⟩ := execPop_cases a s <;>
      cases e.symm.trans h
    · exact fault (by decide) (by decide)
    · exact fault (by decide) (by decide)
    · exact fault (by decide) (by decide)
    · exact .pop ho _ (by rw [ha]) _ _ _
  | call =>
    obtain ⟨_, e⟩ | ⟨_, _, e⟩ | ⟨_, _, _, e⟩ | ⟨_, top, _, _, _, ht, _, e⟩ := execCall_cases a s <;>
      cases e.symm.trans h
    · exact fault (by decide) (by decide)
    · exact fault (by decide) (by decide)
    · exact fault (by decide) (by decide)
    · exact .store .call ho (.inr rfl) top ht _ _
  | ret =>
    obtain ⟨_, e⟩ | ⟨_, _, _, e⟩ := execRet_cases s <;> cases e.symm.trans h
    · exact fault (by decide) (by decide)
    · exact .ret ho _ _
  | cmp =>
    cases hs : s.cfg.cmpSource with
    | memAtOperand =>
      obtain ⟨_, e⟩ | ⟨_, _, _, e⟩ := execCmp_memAtOperand_cases a b hs <;> cases e.symm.trans h
      · exact fault (by decide) (by decide)
      · exact .compare ho _ _ _
    | reg =>
      obtain ⟨_, e⟩ | ⟨_, _, _, e⟩ | ⟨_, _, _, _, _, e⟩ := execCmp_reg_cases a b hs <;>
        cases e.symm.trans h
      · exact fault (by decide) (by decide)
      · exact fault (by decide) (by decide)
      · exact .compare ho _ _ _
  | jmp => exact stepEffect_jumpIf ho (.inl rfl) h
  | jeq => exact stepEffect_jumpIf ho (.inr (.inl rfl)) h
  | jne => exact stepEffect_jumpIf ho (.inr (.inr rfl)) h

/-- Everything one cycle of a running machine can do, in the shapes of `StepEffect`. -/
theorem step_effect {s t : State} (hr : s.run = true) (h : step s = .next t) :
    StepEffect s t := by
  obtain ⟨_, e⟩ | ⟨o, ho, ⟨_, e⟩ | ⟨_, e⟩⟩ := step_cases hr
  · cases e.symm.trans h
    exact .fault _ (by decide) (by decide)
  · cases e.symm.trans h
    exact .fault _ (by decide) (by decide)
  · exact stepEffect_exec ho.symm (e.symm.trans h)

end Machine

end Sys2Proof
end

