-- ==== Sys2Proof/Laws/Safety.lean ====
section
/-! SUPPORT. The claims' terms for the operations the machine uses: fault entry, compare flags, and
the raw opcode bytes. -/

namespace Sys2Proof.Machine

theorem haltEntry_halt (s : State) (c : Cause) (op : Byte) : HaltEntry s c op (s.halt c op) :=
  ⟨rfl, rfl, rfl, rfl, rfl, fun _ => rfl, rfl, fun _ => rfl, rfl, rfl⟩

/-- `State.raise` is the fault entry of 60_exceptions.md R166. -/
theorem raises_of_eq {s : State} {r : Result} {c : Cause} (h : r = .next (s.raise c)) :
    Raises s r c :=
  ⟨_, h, haltEntry_halt s c _⟩

/-- A fault taken with one cause is not the fault of another. -/
theorem Raises.cause_unique {s : State} {r : Result} {c d : Cause} (h : Raises s r c)
    (h' : Raises s r d) : c = d := by
  obtain ⟨t, rfl, ht⟩ := h
  obtain ⟨u, e, hu⟩ := h'
  cases e
  exact ht.cause.symm.trans hu.cause

/-- A machine that still runs has taken no fault. -/
theorem not_raises_of_run {s t : State} {c : Cause} (h : t.run = true) :
    ¬ Raises s (.next t) c := by
  rintro ⟨u, e, hu⟩
  cases e
  exact absurd (h.symm.trans hu.run) (by decide)

theorem flagsCompare_aluCmp (u v : Byte) : FlagsCompare (aluCmp u v) u v :=
  ⟨by simp [aluCmp, BitVec.toNat_eq], by simp [aluCmp], by simp [aluCmp]⟩

/-- A compare sets exactly one flag (42_alu.md R113). -/
theorem exactlyOne_aluCmp (u v : Byte) : Flags.exactlyOne (aluCmp u v) := by
  obtain h | h | h := lt_trichotomy u.toNat v.toNat
  · exact .inr (.inl ⟨by simp [aluCmp]; omega, by simp [aluCmp, h], by simp [aluCmp]; omega⟩)
  · exact .inl ⟨by simp [aluCmp, h], by simp [aluCmp]; omega, by simp [aluCmp]; omega⟩
  · exact .inr (.inr ⟨by simp [aluCmp]; omega, by simp [aluCmp]; omega, by simp [aluCmp, h]⟩)

/-- The raw opcode bytes are the rows' encodings (30_encoding.md R64). -/
theorem mem_opcodeBytes_iff (op : Byte) : op ∈ opcodeBytes ↔ ∃ o : Opcode, o.encoding = op := by
  constructor
  · intro h
    simp only [opcodeBytes, List.mem_cons, List.not_mem_nil, or_false] at h
    rcases h with h | h | h | h | h | h | h | h | h | h | h | h <;> subst h
    exacts [⟨.hlt, rfl⟩, ⟨.ldi, rfl⟩, ⟨.prn, rfl⟩, ⟨.mul, rfl⟩, ⟨.push, rfl⟩, ⟨.pop, rfl⟩,
      ⟨.call, rfl⟩, ⟨.ret, rfl⟩, ⟨.cmp, rfl⟩, ⟨.jmp, rfl⟩, ⟨.jeq, rfl⟩, ⟨.jne, rfl⟩]
  · rintro ⟨o, rfl⟩
    cases o <;> decide

theorem operandCountOf_encoding (o : Opcode) : operandCountOf o.encoding = o.operandCount := by
  cases o <;> rfl

end Sys2Proof.Machine
end

