-- ==== Sys2Proof/Tests/Slice0.lean ====
section
/-! SUPPORT. Tests on small states. The expected results are the spec's: the examples of the
instruction rules and the vectors of 95_test_vectors.md, named at each test. A `witness` shows states
and operands that meet the hypotheses of an obligation, one for each clause, at its boundary. -/

namespace Sys2Proof.Tests

open Sys2Proof.Machine

/-- The state after reset with bytes stored from address `n` and `pc` there. -/
def placedAt (n : Byte) (bytes : List Byte) : State :=
  (State.reset.storeBytes n.toNat bytes).setPc n

/-- The same machine with other parameters. -/
def withConfig (c : Config) (s : State) : State := { s with cfg := c }

/-- Register `i` of `s` set to `v`. -/
def withReg (i : RegIndex) (v : Byte) (s : State) : State := s.setReg i v

/-- The machine that compares registers. -/
def regConfig : Config := { defaultConfig with cmpSource := .reg }

/-- Whether the answer is a next state that has `p`. -/
def gives (r : Result) (p : State → Bool) : Bool :=
  match r with
  | .next t => p t
  | .fault _ => false
  | .refused _ => false

/-! ## Well-formedness refuses each ill-formed operand (30_encoding.md R62) -/

theorem test_wellFormed_refuses_bad_registers :
    [Instr.ldi 8 0, .prn 9, .mul 8 0, .mul 0 8, .push 255, .pop 8, .call 8, .jmp 8, .jeq 9, .jne 9].map
      (Instr.wellFormed defaultConfig) = List.replicate 10 false := by decide

theorem test_wellFormed_refuses_bad_compare_registers :
    [Instr.cmp 8 0, .cmp 0 8].map (Instr.wellFormed regConfig) = [false, false] := by decide

theorem test_wellFormed_accepts_addresses_and_boundaries :
    Instr.wellFormed defaultConfig (.cmp 0xF0 8) = true ∧
    Instr.wellFormed regConfig (.cmp 7 0) = true ∧
    Instr.wellFormed defaultConfig (.ldi 7 255) = true ∧
    Instr.wellFormed defaultConfig .hlt = true ∧
    Instr.wellFormed defaultConfig .ret = true := by decide

/-! ## Decoding, words written out from 30_encoding.md R64 -/

theorem test_decode_hlt : decodeTableWord 8 0b00000001 = some .hlt := by decide
theorem test_decode_ldi : decodeTableWord 24 0b10000001_00000110_10000010 = some (.ldi 6 129) := by
  decide
theorem test_decode_prn : decodeTableWord 16 0b00000111_01000111 = some (.prn 7) := by decide
theorem test_decode_mul : decodeTableWord 24 0b00000101_00000010_10100010 = some (.mul 2 5) := by
  decide
theorem test_decode_push : decodeTableWord 16 0b00000011_01000101 = some (.push 3) := by decide
theorem test_decode_pop : decodeTableWord 16 0b00000100_01000110 = some (.pop 4) := by decide
theorem test_decode_call : decodeTableWord 16 0b00000001_01010000 = some (.call 1) := by decide
theorem test_decode_ret : decodeTableWord 8 0b00010001 = some .ret := by decide
theorem test_decode_cmp : decodeTableWord 24 0b00001000_11110010_10100111 = some (.cmp 0xF2 8) := by
  decide
theorem test_decode_jmp : decodeTableWord 16 0b00000000_01010100 = some (.jmp 0) := by decide
theorem test_decode_jeq : decodeTableWord 16 0b00000010_01010101 = some (.jeq 2) := by decide
theorem test_decode_jne : decodeTableWord 16 0b00000011_01010110 = some (.jne 3) := by decide

/-- 30_encoding.md R68, and an operand byte that is not there (40_engine_cycle.md R83). -/
theorem test_decode_rejects :
    decode [0x00, 0, 0] = .error (.unknownOpcode 0x00) ∧
    decode [0xFF] = .error (.unknownOpcode 0xFF) ∧
    decode [0xA0, 0, 1] = .error (.unknownOpcode 0xA0) ∧
    decode [0x82, 0] = .error .missingByte ∧ decode [0x47] = .error .missingByte ∧
    decode [] = .error .missingByte := by decide

/-- A table word with no bits for its operands: the operand bytes are zeros. -/
theorem test_table_word_shorter_than_instruction :
    decodeTableWord 8 0xA2 = some (.mul 0 0) ∧
    gives (step (State.reset.withFetchWord 8 0xA2)) (fun t => t.pc == 3 && t.run) = true := by decide

/-! ## One step of each instruction -/

/-- V-HLT-1 and the example of R90. -/
theorem test_hlt : gives (step (placedAt 5 [0x01])) (fun t =>
    !t.run && t.cause == .hlt && t.haltPc == 5 && t.haltOp == 0x01 && t.pc == 5 &&
      t.reg 7 == 0xF3) = true := by decide

/-- HLT at the last address, V-HLT-2. -/
theorem test_hlt_at_255 : gives (step (placedAt 255 [0x01])) (fun t => t.cause == .hlt) = true := by decide

/-- The example of R100. -/
theorem test_ldi : gives (step (placedAt 0 [0x82, 0, 8])) (fun t => t.reg 0 == 8 && t.pc == 3) = true := by
  decide

/-- V-FLT-1: the next address would be 256, and nothing is written. -/
theorem test_ldi_at_253 : gives (step (placedAt 253 [0x82, 0, 1])) (fun t =>
    t.cause == .memAddrRange && t.haltPc == 253 && t.haltOp == 0x82 && t.reg 0 == 0) = true := by decide

/-- V-PRN-3. -/
theorem test_prn_r7 : gives (step (placedAt 0 [0x47, 7])) (fun t => t.out == [243] && t.pc == 2) = true := by
  decide

/-- V-PRN-4. -/
theorem test_prn_bad_index : gives (step (placedAt 0 [0x47, 9])) (fun t =>
    t.cause == .regIndexRange && t.out == []) = true := by decide

/-- V-ALU-2: 600 mod 256 is 88. -/
theorem test_mul_wraps :
    gives (step (withReg 0 200 (withReg 1 3 (placedAt 0 [0xA2, 0, 1])))) (fun t =>
      t.reg 0 == 88 && t.reg 1 == 3 && t.pc == 3) = true := by decide

/-- V-ALU-3: the same register twice. -/
theorem test_mul_same_register :
    gives (step (withReg 0 255 (placedAt 0 [0xA2, 0, 0]))) (fun t => t.reg 0 == 1) = true := by decide

/-- V-STK-1. -/
theorem test_push : gives (step (withReg 0 0x2A (placedAt 3 [0x45, 0]))) (fun t =>
    t.reg 7 == 0xF2 && t.memRead 0xF2 == 0x2A && t.memRead 0xF3 == 0 && t.pc == 5) = true := by decide

/-- V-STK-4: PUSH R7 stores the decremented stack pointer. -/
theorem test_push_r7 : gives (step (placedAt 0 [0x45, 7])) (fun t =>
    t.reg 7 == 0xF2 && t.memRead 0xF2 == 0xF2) = true := by decide

/-- The example of R134. -/
theorem test_pop :
    gives (step (withReg 0 7 (withReg 7 0xF1 ((placedAt 0x11 [0x46, 0]).memWrite 0xF1 0x2A)))) (fun t =>
      t.reg 0 == 0x2A && t.reg 7 == 0xF2 && t.memRead 0xF1 == 0x2A && t.pc == 0x13) = true := by decide

/-- V-STK-7: POP R7 leaves the popped byte plus 1. -/
theorem test_pop_r7 : gives (step ((placedAt 0 [0x46, 7]).memWrite 0xF3 0x80)) (fun t =>
    t.reg 7 == 0x81) = true := by decide

/-- The example of R136. -/
theorem test_call : gives (step (withReg 1 9 (placedAt 3 [0x50, 1]))) (fun t =>
    t.reg 7 == 0xF2 && t.memRead 0xF2 == 5 && t.pc == 9) = true := by decide

/-- V-CALL-4: CALL R7 jumps to the decremented stack pointer. -/
theorem test_call_r7 : gives (step (placedAt 0 [0x50, 7])) (fun t =>
    t.reg 7 == 0xF2 && t.memRead 0xF2 == 2 && t.pc == 0xF2) = true := by decide

/-- The example of R138. -/
theorem test_ret : gives (step (withReg 7 0xF2 ((placedAt 0x13 [0x11]).memWrite 0xF2 5))) (fun t =>
    t.pc == 5 && t.reg 7 == 0xF3) = true := by decide

/-- V-RET-3. -/
theorem test_ret_sp_255 : gives (step (withReg 7 255 (placedAt 3 [0x11]))) (fun t =>
    t.cause == .spRange && t.haltPc == 3 && t.haltOp == 0x11 && t.reg 7 == 255) = true := by decide

/-- V-CMP-6: M[4] = 7 is less than M[5] = 9. -/
theorem test_cmp_memory : gives (step (placedAt 0 [0xA7, 4, 5, 1, 7, 9])) (fun t =>
    t.flags == ⟨false, true, false⟩ && t.pc == 3) = true := by decide

/-- V-CMP-4 under `REG`: 127 is less than 128, unsigned. -/
theorem test_cmp_registers :
    gives (step (withConfig regConfig (withReg 0 0x7F (withReg 1 0x80 (placedAt 0 [0xA7, 0, 1]))))) (fun t =>
      t.flags == ⟨false, true, false⟩) = true := by decide

/-- V-JMP-5: JMP at 254 is legal. -/
theorem test_jmp_at_254 : gives (step (withReg 1 8 (placedAt 254 [0x54, 1]))) (fun t =>
    t.pc == 8 && t.run) = true := by decide

/-- V-JMP-4. -/
theorem test_jmp_bad_index : gives (step (placedAt 0 [0x54, 8])) (fun t =>
    t.cause == .regIndexRange && t.pc == 0) = true := by decide

/-- The example of R152. -/
theorem test_jeq_taken :
    gives (step (withReg 2 0x12 ((placedAt 0x0C [0x55, 2]).setFlags ⟨true, false, false⟩))) (fun t =>
      t.pc == 0x12) = true := by decide

/-- V-BR-8: not taken at 254. -/
theorem test_jeq_not_taken_at_254 : gives (step (placedAt 254 [0x55, 0])) (fun t =>
    t.cause == .memAddrRange && t.haltPc == 254) = true := by decide

/-- The example of R153. -/
theorem test_jne_not_taken :
    gives (step (withReg 3 0x0C ((placedAt 0x14 [0x56, 3]).setFlags ⟨true, false, false⟩))) (fun t =>
      t.pc == 0x16) = true := by decide

/-- V-BR-9: taken at 254. -/
theorem test_jne_taken_at_254 : gives (step (withReg 1 8 (placedAt 254 [0x56, 1]))) (fun t =>
    t.pc == 8 && t.run) = true := by decide

/-- The priority example of 60_exceptions.md R165: PUSH R9 at 254 with SP = 0. -/
theorem test_priority : gives (step (withReg 7 0 (placedAt 254 [0x45, 9]))) (fun t =>
    t.cause == .regIndexRange) = true := by decide

/-- V-INV-3, the status as the host reads it (10_state.md R23). -/
theorem test_status : gives (step (placedAt 0 [0xA0, 0, 1])) (fun t =>
    t.status == ⟨false, 2#3, 0#8, 0xA0#8⟩) = true := by decide

/-! ## The hypotheses of the obligations can be met -/

theorem witness_DecodedBytesAreTheEncoding :
    decode [0x82, 7, 255, 1] = .ok (.ldi 7 255, [1]) := by decide

/-- LDI at the last place it fits, HLT at the last address. -/
theorem witness_StepRunsTheInstructionAtPc :
    ((placedAt 253 [0x82, 7, 255]).run = true ∧ (placedAt 253 [0x82, 7, 255]).holdsAtPc (.ldi 7 255)) ∧
    ((placedAt 255 [0x01]).run = true ∧ (placedAt 255 [0x01]).holdsAtPc .hlt) := by
  unfold State.holdsAtPc
  decide

theorem witness_HaltedMachineStaysAsItIs : (State.reset.halt .hlt 1).run = false := rfl

/-- One state for each cause, and states that meet no fault. -/
theorem witness_FirstFaultThatAppliesIsTaken :
    (firstFaultIs (placedAt 0 [0xFF]) .invalidOpcode ∧ (placedAt 0 [0xFF]).run = true) ∧
    firstFaultIs (placedAt 255 [0x47]) .memAddrRange ∧
    firstFaultIs (placedAt 253 [0x82, 7, 0]) .memAddrRange ∧
    firstFaultIs (placedAt 253 [0x82, 8, 0]) .regIndexRange ∧
    firstFaultIs (withReg 7 0 (placedAt 254 [0x45, 0])) .spRange ∧
    (noFault (placedAt 252 [0x82, 7, 0]) ∧ (placedAt 252 [0x82, 7, 0]).opByte ≠ 0x01#8) ∧
    (noFault (placedAt 255 [0x01]) ∧ (placedAt 255 [0x01]).opByte = 0x01#8) := by
  unfold noFault firstFaultIs badRegisterIndex badStackPointer badNextAddress
  refine ⟨by decide, by decide, by decide, by decide, by decide, ⟨fun c => ?_, by decide⟩,
    fun c => ?_, by decide⟩ <;> cases c <;> decide

theorem witness_FaultsArePrecise :
    (placedAt 0 [0xFF]).run = true ∧
    step (placedAt 0 [0xFF]) = .next ((placedAt 0 [0xFF]).raise .invalidOpcode) ∧
    ((placedAt 0 [0xFF]).raise .invalidOpcode).faulted :=
  ⟨rfl, rfl, rfl, by decide⟩

theorem witness_OnlyHltEndsARunNormally :
    (placedAt 255 [0x01]).run = true ∧
    step (placedAt 255 [0x01]) = .next ((placedAt 255 [0x01]).halt .hlt 0x01#8) ∧
    ((placedAt 255 [0x01]).halt .hlt 0x01#8).endedNormally :=
  ⟨rfl, rfl, rfl, rfl⟩

theorem witness_InvalidOpcodeIsTakenExactlyOutsideTheTable :
    State.reset.run = true ∧ State.reset.opByte ∉ opcodeBytes := by decide

theorem witness_BadRegisterOperandIsTheIndexFault :
    State.reset.run = true ∧ Instr.wellFormed State.reset.cfg (.jeq 8) = false := by decide

theorem witness_HltHaltsNormally : (placedAt 255 [0x01]).run = true ∧ (placedAt 255 [0x01]).opByte = 0x01#8 := by
  decide

theorem witness_LdiWritesItsImmediate :
    8 ≤ (8#8).toNat ∧
    ((7#8).toNat < 8 ∧ 255 < (placedAt 253 []).pc.toNat + 3) ∧
    ((7#8).toNat < 8 ∧ (placedAt 252 []).pc.toNat + 3 ≤ 255) ∧
    ((placedAt 254 [0x82]).run = true ∧ (placedAt 254 [0x82]).opByte = 0x82#8 ∧
      254 ≤ (placedAt 254 [0x82]).pc.toNat) := by decide

theorem witness_PrnEmitsItsRegister :
    8 ≤ (8#8).toNat ∧
    ((7#8).toNat < 8 ∧ 255 < (placedAt 254 []).pc.toNat + 2) ∧
    ((7#8).toNat < 8 ∧ (placedAt 253 []).pc.toNat + 2 ≤ 255) ∧
    ((placedAt 255 [0x47]).run = true ∧ (placedAt 255 [0x47]).opByte = 0x47#8 ∧
      (placedAt 255 [0x47]).pc.toNat = 255) := by decide

theorem witness_MulWritesTheLowByteOfTheProduct :
    (8 ≤ (7#8).toNat ∨ 8 ≤ (8#8).toNat) ∧
    ((7#8).toNat < 8 ∧ 255 < (placedAt 253 []).pc.toNat + 3) ∧
    ((7#8).toNat < 8 ∧ (placedAt 252 []).pc.toNat + 3 ≤ 255) ∧
    ((placedAt 254 [0xA2]).run = true ∧ (placedAt 254 [0xA2]).opByte = 0xA2#8 ∧
      254 ≤ (placedAt 254 [0xA2]).pc.toNat) := by decide

theorem witness_CmpSetsTheFlagsFromItsSource :
    ((placedAt 253 []).cfg.cmpSource = .memAtOperand ∧ 255 < (placedAt 253 []).pc.toNat + 3) ∧
    ((placedAt 252 []).cfg.cmpSource = .memAtOperand ∧ (placedAt 252 []).pc.toNat + 3 ≤ 255) ∧
    ((withConfig regConfig (placedAt 0 [])).cfg.cmpSource = .reg ∧ 8 ≤ (8#8).toNat) ∧
    ((withConfig regConfig (placedAt 253 [])).cfg.cmpSource = .reg ∧ (7#8).toNat < 8 ∧
      255 < (withConfig regConfig (placedAt 253 [])).pc.toNat + 3) ∧
    ((withConfig regConfig (placedAt 252 [])).cfg.cmpSource = .reg ∧ (7#8).toNat < 8 ∧
      (withConfig regConfig (placedAt 252 [])).pc.toNat + 3 ≤ 255) ∧
    ((placedAt 254 [0xA7]).run = true ∧ (placedAt 254 [0xA7]).opByte = 0xA7#8 ∧
      254 ≤ (placedAt 254 [0xA7]).pc.toNat) := by decide

/-- The stack pointer at the floor 0, and one above it; the same states serve CALL. -/
theorem witness_PushStoresBelowTheStackPointer :
    8 ≤ (8#8).toNat ∧
    ((7#8).toNat < 8 ∧ (((withReg 7 0 (placedAt 0 [])).reg 7).toNat : Int) - 1 <
      (withReg 7 0 (placedAt 0 [])).cfg.stackFloor.toNat) ∧
    (((withReg 7 1 (placedAt 254 [])).cfg.stackFloor.toNat : Int) ≤
      (((withReg 7 1 (placedAt 254 [])).reg 7).toNat : Int) - 1 ∧
      255 < (withReg 7 1 (placedAt 254 [])).pc.toNat + 2) ∧
    (((withReg 7 1 (placedAt 253 [])).cfg.stackFloor.toNat : Int) ≤
      (((withReg 7 1 (placedAt 253 [])).reg 7).toNat : Int) - 1 ∧
      (withReg 7 1 (placedAt 253 [])).pc.toNat + 2 ≤ 255 ∧ (withReg 7 1 (placedAt 253 [])).mem.wf = true) ∧
    ((placedAt 255 [0x45]).run = true ∧ (placedAt 255 [0x45]).opByte = 0x45#8) := by decide

theorem witness_PopLoadsFromTheStackPointer :
    8 ≤ (8#8).toNat ∧
    ((0#8).toNat ≠ 7 ∧ 255 < ((withReg 7 255 (placedAt 0 [])).reg 7).toNat + 1) ∧
    ((7#8).toNat = 7 ∧
      255 < (((placedAt 0 []).memWrite 0xF3 255).memRead (((placedAt 0 []).memWrite 0xF3 255).reg 7)).toNat + 1) ∧
    (((withReg 7 254 (placedAt 254 [])).reg 7).toNat + 1 ≤ 255 ∧
      255 < (withReg 7 254 (placedAt 254 [])).pc.toNat + 2) ∧
    (((withReg 7 254 (placedAt 253 [])).reg 7).toNat + 1 ≤ 255 ∧
      (withReg 7 254 (placedAt 253 [])).pc.toNat + 2 ≤ 255) ∧
    ((placedAt 255 [0x46]).run = true ∧ (placedAt 255 [0x46]).opByte = 0x46#8) := by decide

theorem witness_CallPushesTheReturnAddressAndJumps :
    8 ≤ (8#8).toNat ∧
    ((7#8).toNat < 8 ∧ (((withReg 7 0 (placedAt 0 [])).reg 7).toNat : Int) - 1 <
      (withReg 7 0 (placedAt 0 [])).cfg.stackFloor.toNat) ∧
    (((withReg 7 1 (placedAt 254 [])).cfg.stackFloor.toNat : Int) ≤
      (((withReg 7 1 (placedAt 254 [])).reg 7).toNat : Int) - 1 ∧
      255 < (withReg 7 1 (placedAt 254 [])).pc.toNat + 2) ∧
    (((withReg 7 1 (placedAt 253 [])).cfg.stackFloor.toNat : Int) ≤
      (((withReg 7 1 (placedAt 253 [])).reg 7).toNat : Int) - 1 ∧
      (withReg 7 1 (placedAt 253 [])).pc.toNat + 2 ≤ 255 ∧ (withReg 7 1 (placedAt 253 [])).mem.wf = true) ∧
    ((placedAt 255 [0x50]).run = true ∧ (placedAt 255 [0x50]).opByte = 0x50#8) := by decide

theorem witness_RetPopsIntoTheProgramCounter :
    ((withReg 7 255 (placedAt 0 [])).reg 7).toNat = 255 ∧
    ((withReg 7 254 (placedAt 0 [])).reg 7).toNat < 255 ∧
    ((placedAt 255 [0x11]).run = true ∧ (placedAt 255 [0x11]).opByte = 0x11#8) := by decide

theorem witness_JmpLoadsTheProgramCounter :
    8 ≤ (8#8).toNat ∧ (7#8).toNat < 8 ∧
    ((placedAt 255 [0x54]).run = true ∧ (placedAt 255 [0x54]).opByte = 0x54#8 ∧
      (placedAt 255 [0x54]).pc.toNat = 255) := by decide

theorem witness_JeqJumpsWhenEqual :
    8 ≤ (8#8).toNat ∧
    ((7#8).toNat < 8 ∧ ((placedAt 254 []).setFlags ⟨true, false, false⟩).flags.e = true) ∧
    ((placedAt 254 []).flags.e = false ∧ 255 < (placedAt 254 []).pc.toNat + 2) ∧
    ((placedAt 253 []).flags.e = false ∧ (placedAt 253 []).pc.toNat + 2 ≤ 255) ∧
    ((placedAt 255 [0x55]).run = true ∧ (placedAt 255 [0x55]).opByte = 0x55#8) := by decide

theorem witness_JneJumpsWhenNotEqual :
    8 ≤ (8#8).toNat ∧
    ((7#8).toNat < 8 ∧ (placedAt 254 []).flags.e = false) ∧
    (((placedAt 254 []).setFlags ⟨true, false, false⟩).flags.e = true ∧
      255 < ((placedAt 254 []).setFlags ⟨true, false, false⟩).pc.toNat + 2) ∧
    (((placedAt 253 []).setFlags ⟨true, false, false⟩).flags.e = true ∧
      ((placedAt 253 []).setFlags ⟨true, false, false⟩).pc.toNat + 2 ≤ 255) ∧
    ((placedAt 255 [0x56]).run = true ∧ (placedAt 255 [0x56]).opByte = 0x56#8) := by decide

/-- The three outcomes: equal, and the two neighbours 127 and 128, in memory cells 16 and 17. -/
theorem witness_CompareOutcomeDecidesTheJump :
    (placedAt 16 [127, 128]).run = true ∧
    (placedAt 16 [127, 128]).comparands 16 16 = .ok (127, 127) ∧
    (placedAt 16 [127, 128]).comparands 16 17 = .ok (127, 128) ∧
    (placedAt 16 [127, 128]).comparands 17 16 = .ok (128, 127) ∧
    (7#8).toNat < 8 ∧ (placedAt 16 [127, 128]).pc.toNat + 3 ≤ 255 ∧
    gives (exec (.cmp 16 17) (placedAt 16 [127, 128])) (fun t => decide (t.pc.toNat + 2 ≤ 255)) = true := by
  decide

theorem witness_LdiThenPrnEmitsTheImmediate :
    (7#8).toNat < 8 ∧ (placedAt 250 []).pc.toNat + 5 ≤ 255 := by decide

theorem witness_MulThenPrnEmitsTheProduct :
    (7#8).toNat < 8 ∧ (0#8).toNat < 8 ∧ (placedAt 250 []).pc.toNat + 5 ≤ 255 := by decide

/-- V-STK-5: PUSH R7 then POP R7, neither faults. -/
theorem witness_PushThenPopRestoresTheRegisters :
    State.reset.mem.wf = true ∧ State.reset.run = true ∧
    gives (exec (.push 7) State.reset) (fun t =>
      t.run && gives (exec (.pop 7) t) (fun u => u.run)) = true := by decide

theorem witness_CallThenRetResumesAfterTheCall :
    State.reset.mem.wf = true ∧ State.reset.run = true ∧
    gives (exec (.call 0) State.reset) (fun t => t.run) = true := by decide

theorem witness_ExactlyOneOfJeqAndJneJumps :
    ∃ h : (7#8).toNat < 8, (placedAt 253 []).pc.toNat + 2 ≤ 255 ∧
      (placedAt 253 []).reg ⟨(7#8).toNat, h⟩ ≠ (placedAt 253 []).pc + 2#8 := by decide

/-- A step that completes, for the statements about every step: CMP's, and another opcode's. -/
theorem witness_every_step :
    (gives (step (placedAt 0 [0xA7, 0, 1])) (fun t => t.run) = true ∧ (placedAt 0 [0xA7, 0, 1]).opByte = 0xA7#8) ∧
    (gives (step (placedAt 0 [0x47, 0])) (fun t => t.run) = true ∧ (placedAt 0 [0x47, 0]).opByte ≠ 0xA7#8 ∧
      (placedAt 0 [0x47, 0]).opByte ∉ ([0x45, 0x50] : List Byte)) ∧
    (gives (step (placedAt 0 [0xFF])) (fun t => !t.run) = true ∧ (placedAt 0 [0xFF]).opByte ≠ 0x47#8) := by
  decide

theorem witness_OnlyListedRegistersChange :
    gives (step (placedAt 0 [0x82, 7, 1])) (fun t => t.run) = true ∧
    ¬ mayWriteRegister (placedAt 0 [0x82, 7, 1]) 6 ∧ mayWriteRegister (placedAt 0 [0x82, 7, 1]) 7 := by
  unfold mayWriteRegister
  decide

theorem witness_EveryStepKeepsTheInvariant :
    Inv (placedAt 0 [0x45, 0]) ∧ gives (step (placedAt 0 [0x45, 0])) (fun t => t.run) = true :=
  ⟨⟨by decide, by decide, by decide, .inl (by decide)⟩, by decide⟩

theorem witness_ReadGivesTheByteLastWritten :
    ((State.reset.memWrite 255 9).mem.wf = true ∧ (State.reset.memWrite 255 9).memRead 255 = 9) := by
  decide

theorem witness_EqualReadsMakeEqualMemories :
    ((State.reset.memWrite 1 5).memWrite 1 0).mem.wf = true ∧ State.reset.mem.wf = true ∧
    KeepsMemory ((State.reset.memWrite 1 5).memWrite 1 0) State.reset :=
  ⟨rfl, rfl, fun _ => rfl⟩

theorem witness_FetchSeesTheByteWritten :
    State.reset.mem.wf = true ∧ (placedAt 253 []).pc.toNat + 2 = (255#8).toNat := by decide

theorem witness_LoadedImageLiesAtAddressZero :
    (List.replicate 256 (0x01#8)).length ≤ 256 ∧ 256 < (List.replicate 257 (0x01#8)).length :=
  ⟨List.length_replicate.le, List.length_replicate.symm ▸ Nat.lt_succ_self 256⟩

theorem witness_SnapshotShowsTheBytesThatExist :
    (placedAt 254 []).pc.toNat ≤ 254 ∧ (placedAt 255 []).pc.toNat = 255 ∧ (placedAt 253 []).pc.toNat ≤ 253 ∧
    254 ≤ (placedAt 254 []).pc.toNat := by decide

theorem witness_PlacedInstructionRunsNext :
    (placedAt 253 []).mem.wf = true ∧ (placedAt 253 []).pc.toNat ≤ 253 ∧
    decodeTableWord 24 0xFF0782 = some (.ldi 7 255) := by decide

end Sys2Proof.Tests
end

/-! ## The state: what every cycle keeps, and what no cycle reads (10_state.md) -/

namespace Sys2Proof.Machine

/-! ### What a cycle leaves, halted machines included -/

/-- Everything one cycle can do: a halted machine stays as it is, a running one does what
`StepEffect` lists (40_engine_cycle.md R88, R91). -/
theorem step_stays_or_effect {s t : State} (h : step s = .next t) :
    (s.run = false ∧ t = s) ∨ (s.run = true ∧ StepEffect s t) := by
  cases hr : s.run with
  | false => cases (step_halted hr).symm.trans h; exact .inl ⟨rfl, rfl⟩
  | true => exact .inr ⟨rfl, step_effect hr h⟩

/-! ### The invariant -/

/-- Halting keeps the invariant where the cause is a real one and the byte recorded is the one at
`pc` (10_state.md R23, R24). -/
theorem Inv.halt {s : State} {c : Cause} {op : Byte} (hi : Inv s) (hc : c ≠ .none)
    (hop : op = s.memRead s.pc) : Inv (s.halt c op) where
  mem := hi.mem
  running := nofun
  halted _ := ⟨hc, rfl, hop⟩
  flags := hi.flags

/-- A running machine that keeps its status registers keeps the invariant where its memory stays
canonical and its flags stay or become a compare's. -/
theorem Inv.of_running {s t : State} (hi : Inv s) (hr : s.run = true) (hk : KeepsStatus s t)
    (hm : t.mem.wf = true) (hf : t.flags = s.flags ∨ Flags.exactlyOne t.flags) : Inv t where
  mem := hm
  running _ := by
    rw [hk.cause, hk.haltPc, hk.haltOp]
    exact hi.running hr
  halted h := absurd (hk.run.symm.trans h) (by simp [hr])
  flags := by
    rw [hk.cfg]
    obtain hf | hf := hf
    · rw [hf]; exact hi.flags
    · exact .inr hf

/-- Every shape of a running machine's cycle keeps the invariant. -/
theorem StepEffect.inv {s t : State} (h : StepEffect s t) (hr : s.run = true) (hi : Inv s) :
    Inv t := by
  have still_running {u : State} := hi.of_running (t := u) hr
  cases h with
  | fault c hn _ => exact hi.halt hn rfl
  | hlt ho => exact hi.halt (by decide) ho.symm
  | writeReg | emit | pop | ret | jump =>
    exact still_running ⟨rfl, rfl, rfl, rfl, rfl⟩ hi.mem (.inl rfl)
  | compare _ u v n =>
    exact still_running ⟨rfl, rfl, rfl, rfl, rfl⟩ hi.mem (.inr (exactlyOne_aluCmp u v))
  | store _ _ _ top _ v n =>
    exact still_running ⟨rfl, rfl, rfl, rfl, rfl⟩ (State.memWrite_wf hi.mem top v) (.inl rfl)

/-- Settles O39: a halted machine stays, and every shape of a running machine's cycle keeps the
invariant. -/
theorem everyStepKeepsTheInvariant : Obligations.EveryStepKeepsTheInvariant := by
  intro s t hi h
  obtain ⟨_, rfl⟩ | ⟨hr, he⟩ := step_stays_or_effect h
  · exact hi
  · exact he.inv hr hi

/-- The state after reset has the invariant, whatever the parameters (10_state.md R30). -/
theorem inv_resetWith (c : Config) : Inv (State.resetWith c) where
  mem := Memory.wf_reset c
  running _ := ⟨rfl, rfl, rfl⟩
  halted := nofun
  flags := .inl rfl

/-- Settles O40. -/
theorem invariantHoldsAtReset : Obligations.InvariantHoldsAtReset :=
  ⟨inv_resetWith defaultConfig, inv_resetWith⟩

/-! ### Flags, registers and configuration: frames of a cycle -/

/-- Only a compare, which leaves the machine running, changes the flags (10_state.md R19). -/
theorem StepEffect.flags_eq {s t : State} (h : StepEffect s t) :
    t.flags = s.flags ∨ (s.opByte = 0xA7#8 ∧ t.run = s.run) := by
  cases h with
  | compare ho => exact .inr ⟨ho, rfl⟩
  | fault | hlt | writeReg | emit | store | pop | ret | jump => exact .inl rfl

/-- Settles O33. -/
theorem onlyCmpChangesTheFlags : Obligations.OnlyCmpChangesTheFlags := by
  intro s t h
  obtain ⟨_, rfl⟩ | ⟨_, he⟩ := step_stays_or_effect h
  · exact ⟨fun _ => rfl, fun _ _ => rfl⟩
  · obtain hf | ⟨hop, hrun⟩ := he.flags_eq
    · exact ⟨fun _ => hf, fun _ _ => hf⟩
    · exact ⟨fun hne => absurd hop hne, fun hr ht => absurd (hrun.symm.trans ht) (by simp [hr])⟩

/-- LDI, MUL and POP may write the register their byte `a` names (10_state.md R13). -/
theorem mayWriteRegister_operand {s : State} {o : Opcode} {i : RegIndex}
    (ho : s.memRead s.pc = o.encoding) (hk : o ∈ [Opcode.ldi, .mul, .pop])
    (hi : i.val = (s.memRead (s.pc + 1#8)).toNat) : mayWriteRegister s i := by
  refine .inl ⟨?_, hi⟩
  rw [State.opByte, ho]
  exact List.mem_map_of_mem (f := Opcode.encoding) hk

/-- PUSH, POP, CALL and RET may write the stack pointer (10_state.md R13). -/
theorem mayWriteRegister_sp {s : State} {o : Opcode} (ho : s.memRead s.pc = o.encoding)
    (hk : o ∈ [Opcode.push, .pop, .call, .ret]) : mayWriteRegister s spIndex := by
  refine .inr ⟨?_, rfl⟩
  rw [State.opByte, ho]
  exact List.mem_map_of_mem (f := Opcode.encoding) hk

/-- A write of a register that `p` names keeps every register but those `p` names. -/
theorem keepsRegsBut_setReg {p : RegIndex → Prop} {s t : State} {i : RegIndex} (v : Byte)
    (h : KeepsRegsBut p s t) (hi : p i) : KeepsRegsBut p s (t.setReg i v) := fun j hj =>
  (State.setReg_reg_other t i j v fun e => hj (e ▸ hi)).trans (h j hj)

/-- Every shape of a cycle keeps the registers its opcode does not list. -/
theorem StepEffect.keepsRegsBut {s t : State} (h : StepEffect s t) :
    KeepsRegsBut (mayWriteRegister s) s t := by
  have same : KeepsRegsBut (mayWriteRegister s) s s := fun _ _ => rfl
  cases h with
  | fault | hlt | emit | compare | jump => exact same
  | writeReg o ho hk i hi v n =>
    have listed : o ∈ [Opcode.ldi, .mul, .pop] := by obtain rfl | rfl := hk <;> simp
    exact keepsRegsBut_setReg v same (mayWriteRegister_operand ho listed hi)
  | store o ho hk top _ v n =>
    have listed : o ∈ [Opcode.push, .pop, .call, .ret] := by obtain rfl | rfl := hk <;> simp
    exact keepsRegsBut_setReg top same (mayWriteRegister_sp ho listed)
  | pop ho i hi v top n =>
    have popped := keepsRegsBut_setReg v same (mayWriteRegister_operand ho (by simp) hi)
    exact keepsRegsBut_setReg top popped (mayWriteRegister_sp ho (by simp))
  | ret ho top n => exact keepsRegsBut_setReg top same (mayWriteRegister_sp ho (by simp))

/-- Settles O36. -/
theorem onlyListedRegistersChange : Obligations.OnlyListedRegistersChange := by
  intro s t h
  obtain ⟨_, rfl⟩ | ⟨_, he⟩ := step_stays_or_effect h
  · exact fun _ _ => rfl
  · exact he.keepsRegsBut

/-- No shape of a cycle writes the configuration. -/
theorem StepEffect.cfg_eq {s t : State} (h : StepEffect s t) : t.cfg = s.cfg := by
  cases h <;> rfl

/-- Settles O38. -/
theorem noStepChangesTheConfiguration : Obligations.NoStepChangesTheConfiguration := by
  intro s t h
  obtain ⟨_, rfl⟩ | ⟨_, he⟩ := step_stays_or_effect h
  · rfl
  · exact he.cfg_eq

/-! ### What no cycle reads: L, G and the output log -/

/-- `s` with other values in the three pieces of state no instruction reads (10_state.md R19, R28). -/
def State.withUnread (s : State) (l g : Bool) (log : List Byte) : State :=
  { s with flags := ⟨s.flags.e, l, g⟩, out := log }

theorem State.withUnread_fetchInstr (s : State) (l g : Bool) (log : List Byte) :
    (s.withUnread l g log).fetchInstr = s.fetchInstr := rfl

/-- The byte at `pc` is the opcode of the instruction fetched (30_encoding.md R65). -/
theorem State.opByte_of_fetchInstr {s : State} {i : Instr} (h : s.fetchInstr = .ok i) :
    s.opByte = i.opcode.encoding := by
  rw [State.fetchInstr_eq] at h
  cases e : Opcode.ofByte (s.memRead s.pc) with
  | none => simp [e] at h
  | some o =>
    simp only [e] at h
    split at h
    · cases h
    · cases h
      rw [Opcode.withOperands_opcode]
      exact ((Opcode.ofByte_eq_some_iff _ o).1 e).symm

/-- `UnreadOutcome s l g log t t'`: where a cycle in `s` leaves `t`, the cycle in
`s.withUnread l g log` leaves `t'`, which differs from `t` in the unread pieces only. -/
inductive UnreadOutcome (s : State) (l g : Bool) (log : List Byte) (t : State) : State → Prop where
  /-- The unread pieces stay. -/
  | kept (hf : t.flags = s.flags) (ho : t.out = s.out) :
      UnreadOutcome s l g log t (t.withUnread l g log)
  /-- PRN: the same byte goes to both logs. -/
  | emitted (hop : s.opByte = Opcode.prn.encoding) (v : Byte) (hf : t.flags = s.flags)
      (ho : t.out = s.out ++ [v]) : UnreadOutcome s l g log t (t.withUnread l g (log ++ [v]))
  /-- CMP: the new flags are the same in both. -/
  | compared (ho : t.out = s.out) :
      UnreadOutcome s l g log t (t.withUnread t.flags.l t.flags.g log)

/-- Two answers that are next states, related by `R`. -/
def BothNext (R : State → State → Prop) (r r' : Result) : Prop :=
  ∃ t t', r = .next t ∧ r' = .next t' ∧ R t t'

section Simulation

variable {s : State} {l g : Bool} {log : List Byte} {α : Type}

/-- The same test in both states: both take the same fault, or both go on with the same value. -/
theorem bothNext_commit_bind {x : Except Cause α} {f f' : α → Effect}
    (h : ∀ v, BothNext (UnreadOutcome s l g log) (commit s (f v))
      (commit (s.withUnread l g log) (f' v))) :
    BothNext (UnreadOutcome s l g log) (commit s (x >>= f))
      (commit (s.withUnread l g log) (x >>= f')) := by
  cases x with
  | ok v => exact h v
  | error c => exact ⟨s.raise c, _, rfl, rfl, .kept rfl rfl⟩

/-- A jump, taken alike in both states. -/
theorem jumpIf_unread (taken : Bool) (a : Byte) :
    BothNext (UnreadOutcome s l g log) (jumpIf taken a s)
      (jumpIf taken a (s.withUnread l g log)) := by
  refine bothNext_commit_bind fun r => ?_
  cases taken with
  | true => exact ⟨_, _, rfl, rfl, .kept rfl rfl⟩
  | false => exact bothNext_commit_bind fun n => ⟨_, _, rfl, rfl, .kept rfl rfl⟩

/-- Every instruction does the same whatever the unread pieces hold: its tests and its writes to
everything else read none of them. -/
theorem exec_unread (i : Instr) (hop : s.opByte = i.opcode.encoding) :
    BothNext (UnreadOutcome s l g log) (exec i s) (exec i (s.withUnread l g log)) := by
  cases i with
  | hlt => exact ⟨_, _, rfl, rfl, .kept rfl rfl⟩
  | ldi a b =>
    exact bothNext_commit_bind fun r => bothNext_commit_bind fun n =>
      ⟨_, _, rfl, rfl, .kept rfl rfl⟩
  | prn a =>
    exact bothNext_commit_bind fun r => bothNext_commit_bind fun n =>
      ⟨_, _, rfl, rfl, .emitted hop (s.reg r) rfl rfl⟩
  | mul a b =>
    exact bothNext_commit_bind fun ra => bothNext_commit_bind fun rb =>
      bothNext_commit_bind fun n => ⟨_, _, rfl, rfl, .kept rfl rfl⟩
  | push a | call a | pop a =>
    exact bothNext_commit_bind fun r => bothNext_commit_bind fun top =>
      bothNext_commit_bind fun n => ⟨_, _, rfl, rfl, .kept rfl rfl⟩
  | ret =>
    simp only [exec, execRet]
    exact bothNext_commit_bind fun top => ⟨_, _, rfl, rfl, .kept rfl rfl⟩
  | cmp a b =>
    exact bothNext_commit_bind fun uv => bothNext_commit_bind fun n =>
      ⟨_, _, rfl, rfl, .compared rfl⟩
  | jmp a => exact jumpIf_unread true a
  | jeq a => exact jumpIf_unread s.flags.e a
  | jne a => exact jumpIf_unread (!s.flags.e) a

end Simulation

/-- Every cycle does the same whatever the unread pieces hold (10_state.md R19, R28). -/
theorem step_unread (s : State) (l g : Bool) (log : List Byte) :
    BothNext (UnreadOutcome s l g log) (step s) (step (s.withUnread l g log)) := by
  cases hr : s.run with
  | false => exact ⟨_, _, step_halted hr, step_halted hr, .kept rfl rfl⟩
  | true =>
    have hr' : (s.withUnread l g log).run = true := hr
    rw [step, step, if_pos hr, if_pos hr', State.withUnread_fetchInstr]
    cases e : s.fetchInstr with
    | ok i => exact exec_unread i (State.opByte_of_fetchInstr e)
    | error c => exact ⟨s.raise c, _, rfl, rfl, .kept rfl rfl⟩

/-- What a cycle known to leave `t` leaves when the unread pieces hold other values. -/
theorem step_withUnread {s t : State} (h : step s = .next t) (l g : Bool) (log : List Byte) :
    ∃ t', step (s.withUnread l g log) = .next t' ∧ UnreadOutcome s l g log t t' := by
  obtain ⟨u, t', hu, ht', ho⟩ := step_unread s l g log
  cases hu.symm.trans h
  exact ⟨t', ht', ho⟩

/-- With the same log in both states, what they leave differs in L and G only. -/
theorem UnreadOutcome.flags_only {s t t' : State} {l g : Bool}
    (h : UnreadOutcome s l g s.out t t') :
    ∃ l' g' : Bool, t' = { t with flags := ⟨t.flags.e, l', g'⟩ } := by
  cases h with
  | kept _ ho => exact ⟨l, g, by rw [← ho]; rfl⟩
  | emitted _ v _ ho => exact ⟨l, g, by rw [← ho]; rfl⟩
  | compared ho => exact ⟨t.flags.l, t.flags.g, by rw [← ho]; rfl⟩

/-- With the same flags in both states, what they leave differs in the log only, and both logs got
the same bytes: at most one, and one at PRN only. -/
theorem UnreadOutcome.out_only {s t t' : State} {log : List Byte}
    (h : UnreadOutcome s s.flags.l s.flags.g log t t') :
    ∃ w : List Byte, w.length ≤ 1 ∧ (s.opByte ≠ Opcode.prn.encoding → w = []) ∧
      t.out = s.out ++ w ∧ t' = { t with out := log ++ w } := by
  cases h with
  | kept hf ho => exact ⟨[], by simp, fun _ => rfl, by simp [ho], by rw [List.append_nil, ← hf]; rfl⟩
  | emitted hop v hf ho => exact ⟨[v], le_refl 1, fun hne => absurd hop hne, ho, by rw [← hf]; rfl⟩
  | compared ho => exact ⟨[], by simp, fun _ => rfl, by simp [ho], by rw [List.append_nil]; rfl⟩

/-- Settles O34: the cycle with other values of L and G and the same log. -/
theorem lessAndGreaterAreNeverRead : Obligations.LessAndGreaterAreNeverRead := by
  intro s t l g h
  obtain ⟨t', ht', ho⟩ := step_withUnread h l g s.out
  obtain ⟨l', g', rfl⟩ := ho.flags_only
  exact ⟨l', g', ht'⟩

/-- Settles O37: the cycle with another log and the same flags. -/
theorem outputLogIsAppendOnlyAndNeverRead : Obligations.OutputLogIsAppendOnlyAndNeverRead := by
  refine ⟨rfl, fun s t log h => ?_⟩
  obtain ⟨t', ht', ho⟩ := step_withUnread h s.flags.l s.flags.g log
  obtain ⟨w, hlen, hprn, hout, rfl⟩ := ho.out_only
  exact ⟨w, hlen, hprn, hout, ht'⟩

/-! ### The canonical form of memory -/

/-- In a canonical list of cells from `lo` on, an address that does not read 0 is at least `lo`. -/
theorem Memory.lo_le_of_read_ne {lo a : Nat} {m : Memory} (hm : Memory.wfFrom lo m = true)
    (h : m.read a ≠ Memory.unlisted) : lo ≤ a :=
  not_lt.1 fun ha => h (Memory.read_below hm ha)

/-- A list of cells reads its first cell's byte at that cell's address. -/
theorem Memory.read_head (k : Nat) (v : Byte) (rest : Memory) :
    Memory.read ((k, v) :: rest) k = v := if_pos rfl

/-- Canonical lists that read the same at every address are equal: they have the same first cell,
the one at the lowest address that does not read 0, and the same cells after it. -/
theorem Memory.eq_of_read_eq : ∀ {lo : Nat} {m m' : Memory}, Memory.wfFrom lo m = true →
    Memory.wfFrom lo m' = true → (∀ a < memSize, m.read a = m'.read a) → m = m'
  | _, [], [], _, _, _ => rfl
  | _, [], (k, v) :: rest, _, hm', h => by
    obtain ⟨_, hk, hv, _⟩ := (Memory.wfFrom_cons _ _ _ _).1 hm'
    exact absurd (Memory.read_head k v rest ▸ (h k hk).symm) hv
  | _, (k, v) :: rest, [], hm, _, h => by
    obtain ⟨_, hk, hv, _⟩ := (Memory.wfFrom_cons _ _ _ _).1 hm
    exact absurd (Memory.read_head k v rest ▸ h k hk) hv
  | _, (k, v) :: rest, (k', v') :: rest', hm, hm', h => by
    obtain ⟨_, hk, hv, hr⟩ := (Memory.wfFrom_cons _ _ _ _).1 hm
    obtain ⟨_, hk', hv', hr'⟩ := (Memory.wfFrom_cons _ _ _ _).1 hm'
    have from_head : Memory.wfFrom k ((k, v) :: rest) = true :=
      (Memory.wfFrom_cons _ _ _ _).2 ⟨le_refl k, hk, hv, hr⟩
    have from_head' : Memory.wfFrom k' ((k', v') :: rest') = true :=
      (Memory.wfFrom_cons _ _ _ _).2 ⟨le_refl k', hk', hv', hr'⟩
    have read_k : Memory.read ((k', v') :: rest') k = v := (h k hk).symm.trans (Memory.read_head ..)
    have read_k' : Memory.read ((k, v) :: rest) k' = v' := (h k' hk').trans (Memory.read_head ..)
    obtain rfl : k = k' := le_antisymm
      (Memory.lo_le_of_read_ne from_head (read_k'.symm ▸ hv'))
      (Memory.lo_le_of_read_ne from_head' (read_k.symm ▸ hv))
    obtain rfl : v' = v := (Memory.read_head ..).symm.trans read_k
    congr 1
    refine Memory.eq_of_read_eq hr hr' fun a ha => ?_
    by_cases hak : k = a
    · subst hak
      rw [Memory.read_below hr (Nat.lt_succ_self k), Memory.read_below hr' (Nat.lt_succ_self k)]
    · simpa only [Memory.read_cons, if_neg hak] using h a ha

/-- Settles O43: the addresses below `memSize` are those of a byte. -/
theorem equalReadsMakeEqualMemories : Obligations.EqualReadsMakeEqualMemories := by
  intro s t hs ht h
  refine Memory.eq_of_read_eq hs ht fun a ha => ?_
  have hread := h (BitVec.ofNat 8 a)
  have haddr : (BitVec.ofNat 8 a).toNat = a := (BitVec.toNat_ofNat a 8).trans (Nat.mod_eq_of_lt ha)
  rw [State.memRead, State.memRead, haddr] at hread
  exact hread.symm

/-! ### Reset and the status the host reads -/

/-- Every cell reads 0 after reset (10_state.md R30). -/
@[simp] theorem State.resetWith_memRead (c : Config) (x : Byte) :
    (State.resetWith c).memRead x = 0#8 := rfl

/-- R0 to R6 are 0 after reset and R7 is `SP_RESET` (10_state.md R30). -/
theorem State.resetWith_reg (c : Config) (i : RegIndex) :
    (State.resetWith c).reg i = if i = spIndex then c.spReset else 0#8 := by
  fin_cases i <;> rfl

/-- Settles O41. -/
theorem resetSetsEveryPieceOfState : Obligations.ResetSetsEveryPieceOfState := by
  refine ⟨?_, rfl, rfl, rfl⟩
  rintro s _ rfl
  exact ⟨State.resetWith_memRead s.cfg, fun i hi => (State.resetWith_reg s.cfg i).trans (if_neg hi),
    rfl, rfl, rfl, rfl, rfl, rfl, rfl, rfl⟩

/-- The codes 6 and 7 are reserved (10_state.md R23). -/
theorem Cause.code_lt_six (c : Cause) : c.code.toNat < 6 := by
  cases c <;> decide

/-- Settles O47. -/
theorem statusCarriesTheCauseCodes : Obligations.StatusCarriesTheCauseCodes :=
  ⟨rfl, fun s => ⟨rfl, rfl, rfl, rfl, s.cause.code_lt_six⟩⟩

end Sys2Proof.Machine

/-! ## Memory: what a cycle may write, what a fetch and a read see (20_memory.md) -/

namespace Sys2Proof.Machine

/-! ### What a cycle may write -/

/-- The address a push stores to is `SP - 1` (43_stack.md R131). -/
theorem State.pushed_address {s : State} {top : Byte} (h : top.toNat + 1 = s.sp.toNat) :
    top = s.reg 7 - 1#8 := by
  change top = s.sp - 1#8
  bv_omega

/-- Every shape of a cycle keeps memory but the one of PUSH and CALL, which stores to the cell just
below the stack pointer. -/
theorem StepEffect.memory_frame {s t : State} (h : StepEffect s t) :
    KeepsMemory s t ∨
      (s.opByte ∈ ([0x45, 0x50] : List Byte) ∧ KeepsMemoryBut (s.reg 7 - 1#8) s t) := by
  cases h with
  | fault | hlt | writeReg | emit | compare | pop | ret | jump => exact .inl fun _ => rfl
  | store o ho hk top ht v n =>
    refine .inr ⟨?_, fun x hx => ?_⟩
    · rw [State.opByte, ho]
      obtain rfl | rfl := hk <;> decide
    · rw [← State.pushed_address ht] at hx
      exact State.memWrite_memRead_other (s.setReg spIndex top) v hx.symm

/-- Settles O35. -/
theorem onlyPushAndCallChangeMemory : Obligations.OnlyPushAndCallChangeMemory := by
  intro s t h
  obtain ⟨_, rfl⟩ | ⟨_, he⟩ := step_stays_or_effect h
  · exact ⟨fun _ _ => rfl, fun _ _ => rfl⟩
  · obtain hkept | ⟨hop, hbut⟩ := he.memory_frame
    · exact ⟨fun _ => hkept, fun x _ => hkept x⟩
    · exact ⟨fun hne => absurd hop hne, hbut⟩

/-! ### What a fetch sees -/

/-- The bytes from an address in memory begin with its cell. -/
theorem State.bytesFrom_succ (s : State) {n : Nat} (count : Nat) (h : n ≤ 255) :
    s.bytesFrom n (count + 1) = s.mem.read n :: s.bytesFrom (n + 1) count := by
  rw [State.bytesFrom, State.byteAt_of_le h]

/-- Byte `k` of the bytes from address `n` is the cell at `n + k`, where memory reaches that far. -/
theorem State.bytesFrom_getElem? (s : State) {n k count : Nat} (hk : k < count)
    (hn : n + k ≤ 255) : (s.bytesFrom n count)[k]? = some (s.mem.read (n + k)) := by
  induction count generalizing n k with
  | zero => exact absurd hk (Nat.not_lt_zero k)
  | succ count ih =>
    rw [State.bytesFrom_succ s count (by omega)]
    cases k with
    | zero => rfl
    | succ k =>
      rw [List.getElem?_cons_succ, ih (by omega) (by omega), Nat.succ_add_eq_add_succ]

/-- Byte `k` of a fetch is the cell at `pc + k` (40_engine_cycle.md R82). -/
theorem State.fetchBytes_getElem? {s : State} {k : Nat} {a : Byte} (hk : k < 3)
    (ha : s.pc.toNat + k = a.toNat) : s.fetchBytes[k]? = some (s.memRead a) := by
  have inMemory : s.pc.toNat + k ≤ 255 := ha ▸ Nat.le_of_lt_succ a.isLt
  rw [State.fetchBytes, State.bytesFrom_getElem? s hk inMemory, ha, State.memRead]

/-- `MemRead` of the address just written (20_memory.md R40). -/
theorem State.memWrite_memRead_same {s : State} (h : s.mem.wf = true) (a v : Byte) :
    (s.memWrite a v).memRead a = v := by
  rw [State.memWrite_memRead h, if_pos rfl]

/-- Settles O44: a write leaves `pc`, and the fetch reads the cell written. -/
theorem fetchSeesTheByteWritten : Obligations.FetchSeesTheByteWritten := by
  intro s a v k hwf hk ha
  rw [State.fetchBytes_getElem? (s := s.memWrite a v) hk ha, State.memWrite_memRead_same hwf]

/-! ### What a read sees -/

/-- Settles O42. -/
theorem readGivesTheByteLastWritten : Obligations.ReadGivesTheByteLastWritten := by
  intro s a v hwf
  exact ⟨State.memWrite_memRead_same hwf a v,
    fun _ hx => State.memWrite_memRead_other s v hx.symm,
    State.memWrite_wf hwf a v,
    fun c => State.resetWith_memRead c a⟩

end Sys2Proof.Machine

/-! ## Encoding: decoder and encoder agree, and the index fault of a bad register byte (30_encoding.md) -/

namespace Sys2Proof

open Sys2Proof.Machine

/-! ### Decoding the encoding -/

/-- Each row reads back its own instruction's operand bytes (30_encoding.md R60). -/
theorem Instr.takeOperands_operands (i : Instr) (rest : List Byte) :
    i.opcode.takeOperands (i.operands ++ rest) = .ok (i, rest) := by
  cases i <;> rfl

/-- Bytes whose first is a row's encoding are decoded by that row (30_encoding.md R65). -/
theorem decode_encoding_cons (o : Opcode) (bytes : List Byte) :
    decode (o.encoding :: bytes) = o.takeOperands bytes := by
  rw [decode, (Opcode.ofByte_eq_some_iff o.encoding o).2 rfl]

/-- Settles O1: the opcode byte selects the instruction's row, and the row reads back its operands. -/
theorem decodeOfEncodeIsTheInstruction : Obligations.DecodeOfEncodeIsTheInstruction := by
  intro i rest
  rw [encode, List.cons_append, decode_encoding_cons, Instr.takeOperands_operands]

/-! ### The bytes that decode -/

/-- Format Z takes nothing. -/
theorem takeNone_eq_ok {i j : Instr} {bytes rest : List Byte}
    (h : takeNone j bytes = .ok (i, rest)) : i = j ∧ bytes = rest := by
  cases h
  exact ⟨rfl, rfl⟩

/-- Format R takes the first byte. -/
theorem takeOne_eq_ok {f : Byte → Instr} {i : Instr} {bytes rest : List Byte}
    (h : takeOne f bytes = .ok (i, rest)) : ∃ a, i = f a ∧ bytes = a :: rest := by
  cases bytes with
  | nil => cases h
  | cons a _ => cases h; exact ⟨a, rfl, rfl⟩

/-- Formats RI and RR take the first two bytes. -/
theorem takeTwo_eq_ok {f : Byte → Byte → Instr} {i : Instr} {bytes rest : List Byte}
    (h : takeTwo f bytes = .ok (i, rest)) : ∃ a b, i = f a b ∧ bytes = a :: b :: rest := by
  match bytes, h with
  | a :: b :: _, h => cases h; exact ⟨a, b, rfl, rfl⟩

/-- A row answers an instruction of its own, and takes exactly that instruction's operand bytes. -/
theorem Opcode.takeOperands_eq_ok {o : Opcode} {i : Instr} {bytes rest : List Byte}
    (h : o.takeOperands bytes = .ok (i, rest)) : i.opcode = o ∧ bytes = i.operands ++ rest := by
  cases o with
  | hlt | ret =>
    obtain ⟨rfl, rfl⟩ := takeNone_eq_ok h
    exact ⟨rfl, rfl⟩
  | prn | push | pop | call | jmp | jeq | jne =>
    obtain ⟨a, rfl, rfl⟩ := takeOne_eq_ok h
    exact ⟨rfl, rfl⟩
  | ldi | mul | cmp =>
    obtain ⟨a, b, rfl, rfl⟩ := takeTwo_eq_ok h
    exact ⟨rfl, rfl⟩

/-- Settles O2: the opcode byte is the encoding of the row it selects, and the row takes exactly the
operand bytes of what it answers. -/
theorem decodedBytesAreTheEncoding : Obligations.DecodedBytesAreTheEncoding := by
  intro bytes rest i h
  cases bytes with
  | nil => cases h
  | cons op bytes =>
    cases e : Opcode.ofByte op with
    | none => simp [decode, e] at h
    | some o =>
      obtain rfl : o.encoding = op := (Opcode.ofByte_eq_some_iff op o).1 e
      rw [decode_encoding_cons] at h
      obtain ⟨rfl, rfl⟩ := Opcode.takeOperands_eq_ok h
      rfl

/-! ### The bytes that are refused -/

/-- Once a row is selected, no opcode byte is refused (30_encoding.md R68). -/
theorem Opcode.takeOperands_ne_unknownOpcode (o : Opcode) (bytes : List Byte) (op : Byte) :
    o.takeOperands bytes ≠ .error (.unknownOpcode op) := by
  cases o with
  | hlt | ret => exact nofun
  | prn | push | pop | call | jmp | jeq | jne => cases bytes <;> exact nofun
  | ldi | mul | cmp => match bytes with | [] | [_] | _ :: _ :: _ => exact nofun

/-- The bytes are refused as an unknown opcode exactly when the first selects no row
(30_encoding.md R65, R68). -/
theorem decode_eq_unknownOpcode_iff (op : Byte) (rest : List Byte) :
    decode (op :: rest) = .error (.unknownOpcode op) ↔ Opcode.ofByte op = none := by
  cases e : Opcode.ofByte op with
  | none => simp [decode, e]
  | some o => simpa [decode, e] using o.takeOperands_ne_unknownOpcode rest op

/-- Twelve of the 256 bytes are opcodes: no row's encoding is listed twice (30_encoding.md R64). -/
theorem length_filter_opcodeBytes :
    ((List.range 256).filter fun n => decide (BitVec.ofNat 8 n ∈ opcodeBytes)).length = 12 := by
  rfl

/-- The other 244 bytes are not. -/
theorem length_filter_not_opcodeBytes :
    ((List.range 256).filter fun n => decide (BitVec.ofNat 8 n ∉ opcodeBytes)).length = 244 := by
  have split := List.length_eq_length_filter_add (l := List.range 256)
    fun n => decide (BitVec.ofNat 8 n ∈ opcodeBytes)
  rw [length_filter_opcodeBytes, List.length_range] at split
  simp only [decide_not]
  omega

/-- Settles O3: a byte that selects no row is none of the twelve, and those are counted. -/
theorem bytesOutsideTheTableAreRefused : Obligations.BytesOutsideTheTableAreRefused := by
  refine ⟨fun op rest => ?_, length_filter_not_opcodeBytes⟩
  rw [decode_eq_unknownOpcode_iff, Opcode.ofByte_eq_none_iff, mem_opcodeBytes_iff, not_exists]

/-! ### Table words and lengths -/

/-- Settles O4: ten closed words. -/
theorem tableWordsDecode : Obligations.TableWordsDecode := by
  unfold Obligations.TableWordsDecode
  decide

/-- The shape of every encoding, from the shape of each instruction's. -/
theorem Laws.EncodedShape.statement : ∀ i : Instr, Laws.EncodedShape.Statement i
  | .hlt => hlt
  | .ldi a b => ldi a b
  | .prn a => prn a
  | .mul a b => mul a b
  | .push a => push a
  | .pop a => pop a
  | .call a => call a
  | .ret => ret
  | .cmp a b => cmp a b
  | .jmp a => jmp a
  | .jeq a => jeq a
  | .jne a => jne a

/-- No two rows have the same encoding (30_encoding.md R65). -/
theorem Opcode.encoding_injective : Function.Injective Opcode.encoding := by
  intro o o' h
  have selected := (Opcode.ofByte_eq_some_iff o'.encoding o).2 h
  rw [(Opcode.ofByte_eq_some_iff o'.encoding o').2 rfl] at selected
  exact (Option.some.inj selected).symm

theorem Opcode.length_le_three (o : Opcode) : o.length ≤ 3 := by
  cases o <;> decide

/-- Settles O5: equal first bytes are the encoding of one row, and the row has the length. -/
theorem lengthIsAPropertyOfTheOpcode : Obligations.LengthIsAPropertyOfTheOpcode := by
  intro i j
  obtain ⟨headI, lengthI⟩ := Laws.EncodedShape.statement i
  obtain ⟨headJ, lengthJ⟩ := Laws.EncodedShape.statement j
  rw [headI, headJ, lengthI, lengthJ]
  refine ⟨i.opcode.length_le_three, Nat.succ_pos _, fun h => ?_⟩
  rw [Opcode.encoding_injective (Option.some.inj h)]

end Sys2Proof

namespace Sys2Proof.Machine

/-! ### The register-index fault -/

/-- The register test fails exactly on a byte that names no register (30_encoding.md R62). -/
theorem regOperand_eq_error_iff (a : Byte) :
    regOperand a = .error .regIndexRange ↔ namesRegister a = false := by
  obtain ⟨ha, e⟩ | ⟨ha, e⟩ := regOperand_cases a <;> simp [e, namesRegister] <;> omega

/-- The comparands of CMP fail exactly where its operands are not well formed
(30_encoding.md R62, R66). -/
theorem State.comparands_eq_error_iff (s : State) (a b : Byte) :
    s.comparands a b = .error .regIndexRange ↔ (Instr.cmp a b).wellFormed s.cfg = false := by
  cases hs : s.cfg.cmpSource with
  | memAtOperand => simp [State.comparands_memAtOperand hs, Instr.wellFormed, hs]
  | reg =>
    obtain ⟨ha, hb, e⟩ | ⟨h, e⟩ := State.comparands_reg hs a b <;>
      simp [e, Instr.wellFormed, hs, namesRegister] <;> omega

/-- An address out of its range raises the fault of that range only. -/
theorem addressIn_ne_error {lo : Nat} {c d : Cause} (n : Int) (h : c ≠ d) :
    addressIn lo c n ≠ .error d := by
  obtain ⟨_, _, t, e, _⟩ | ⟨_, e⟩ := addressIn_cases lo c n <;> simp [e, h]

section FirstTest

variable {s : State} {c : Cause} {α : Type} {x : Except Cause α} {f : α → Effect}

/-- An instruction takes the fault `c` exactly when its first test raises it, or passes and what
follows takes it (60_exceptions.md R165). -/
theorem raises_commit_bind_iff :
    Raises s (commit s (x >>= f)) c ↔
      x = .error c ∨ ∃ v, x = .ok v ∧ Raises s (commit s (f v)) c := by
  cases x with
  | ok v => simp [bind, Except.bind]
  | error d =>
    have taken : Raises s (commit s (.error d >>= f)) d := raises_of_eq rfl
    constructor
    · exact fun h => .inl (congrArg _ (taken.cause_unique h))
    · rintro (h | ⟨v, h, _⟩) <;> cases h
      exact taken

/-- Where nothing after the first test takes `c`, the instruction takes it exactly when that test
raises it. -/
theorem raises_first_test_iff (hf : ∀ v, ¬ Raises s (commit s (f v)) c) :
    Raises s (commit s (x >>= f)) c ↔ x = .error c := by
  simp [raises_commit_bind_iff, hf]

/-- A fault that neither the first test raises nor what follows takes is not taken. -/
theorem not_raises_bind (hx : x ≠ .error c) (hf : ∀ v, ¬ Raises s (commit s (f v)) c) :
    ¬ Raises s (commit s (x >>= f)) c :=
  mt (raises_first_test_iff hf).1 hx

/-- The same where the first test is of a register operand. -/
theorem raises_regOperand_bind_iff {a : Byte} {f : RegIndex → Effect}
    (hf : ∀ r, ¬ Raises s (commit s (f r)) .regIndexRange) :
    Raises s (commit s (regOperand a >>= f)) .regIndexRange ↔ namesRegister a = false :=
  (raises_first_test_iff hf).trans (regOperand_eq_error_iff a)

/-- The same where the first two tests are of register operands. -/
theorem raises_two_regOperands_bind_iff {a b : Byte} {f : RegIndex → RegIndex → Effect}
    (hf : ∀ ra rb, ¬ Raises s (commit s (f ra rb)) .regIndexRange) :
    Raises s (commit s (regOperand a >>= fun ra => regOperand b >>= f ra)) .regIndexRange ↔
      (namesRegister a && namesRegister b) = false := by
  have second (ra : RegIndex) := raises_regOperand_bind_iff (a := b) (hf ra)
  rw [raises_commit_bind_iff, regOperand_eq_error_iff, Bool.and_eq_false_iff]
  obtain ⟨_, e⟩ | ⟨_, e⟩ := regOperand_cases a
  · simp [e, second]
  · simp [e, (regOperand_eq_error_iff a).1 e]

/-- Where the first test is of an address, only that address' fault is taken before what follows. -/
theorem not_raises_address_bind {lo : Nat} {d : Cause} {n : Int} {f : Byte → Effect}
    (hd : d ≠ c) (hf : ∀ v, ¬ Raises s (commit s (f v)) c) :
    ¬ Raises s (commit s (addressIn lo d n >>= f)) c :=
  not_raises_bind (addressIn_ne_error n hd) hf

end FirstTest

/-- A jump takes the index fault exactly when its register byte names none, taken or not
(44_branch.md R150). -/
theorem raises_jumpIf_iff {s : State} (hr : s.run = true) (taken : Bool) (a : Byte) :
    Raises s (jumpIf taken a s) .regIndexRange ↔ namesRegister a = false :=
  raises_regOperand_bind_iff fun r => by
    cases taken with
    | true => exact not_raises_of_run hr
    | false => exact not_raises_address_bind (by decide) fun next => not_raises_of_run hr

/-- An instruction of a running machine takes the index fault exactly when it is not well formed: its
register operands are tested first, and no later test raises that fault (60_exceptions.md R165). -/
theorem raises_exec_regIndexRange_iff (i : Instr) {s : State} (hr : s.run = true) :
    Raises s (exec i s) .regIndexRange ↔ i.wellFormed s.cfg = false := by
  have completes {t : State} (ht : t.run = s.run) : ¬ Raises s (commit s (.ok t)) .regIndexRange :=
    not_raises_of_run (ht.trans hr)
  cases i with
  | hlt =>
    refine iff_of_false ?_ (by simp [Instr.wellFormed])
    rintro ⟨t, e, ht⟩
    cases e
    exact absurd ht.cause (by simp)
  | ldi a b =>
    exact raises_regOperand_bind_iff fun r =>
      not_raises_address_bind (by decide) fun next => completes rfl
  | prn a =>
    exact raises_regOperand_bind_iff fun r =>
      not_raises_address_bind (by decide) fun next => completes rfl
  | mul a b =>
    exact raises_two_regOperands_bind_iff fun ra rb =>
      not_raises_address_bind (by decide) fun next => completes rfl
  | push a | call a | pop a =>
    exact raises_regOperand_bind_iff fun r =>
      not_raises_address_bind (by decide) fun top =>
        not_raises_address_bind (by decide) fun next => completes rfl
  | ret =>
    refine iff_of_false ?_ (by simp [Instr.wellFormed])
    simp only [exec, execRet]
    exact not_raises_address_bind (by decide) fun top => completes rfl
  | cmp a b =>
    rw [← State.comparands_eq_error_iff]
    exact raises_first_test_iff fun uv =>
      not_raises_address_bind (by decide) fun next => completes rfl
  | jmp a | jeq a | jne a => exact raises_jumpIf_iff hr _ a

/-- Settles O13. -/
theorem badRegisterOperandIsTheIndexFault : Obligations.BadRegisterOperandIsTheIndexFault :=
  fun i _ hr => (raises_exec_regIndexRange_iff i hr).symm

end Sys2Proof.Machine

/-! ## The cycle: it always answers, what it runs, and how it ends a run (40_engine_cycle.md) -/

namespace Sys2Proof.Machine

/-! ### A halted machine, and that every step answers -/

theorem cycles_succ {s t : State} (n : Nat) (h : step s = .next t) :
    cycles (n + 1) s = cycles n t := by
  simp only [cycles, h]

/-- Settles O7, by induction on the number of cycles. -/
theorem haltedMachineStaysAsItIs : Obligations.HaltedMachineStaysAsItIs := by
  intro s n hr
  induction n with
  | zero => rfl
  | succ n ih => rw [cycles_succ n (step_halted hr), ih]

/-- Whatever an instruction's tests say, its end is a next state (40_engine_cycle.md R85). -/
theorem commit_answers (s : State) (e : Effect) : ∃ t, commit s e = .next t := by
  obtain ⟨t, _, h⟩ | ⟨c, _, h⟩ := commit_next s e
  · exact ⟨t, h⟩
  · exact ⟨s.raise c, h⟩

/-- Every instruction answers a next state: HLT at once, every other through `commit`. -/
theorem exec_answers (i : Instr) (s : State) : ∃ t, exec i s = .next t := by
  cases i with
  | hlt => exact ⟨_, rfl⟩
  | ldi | prn | mul | push | pop | call | cmp | jmp | jeq | jne => exact commit_answers s _
  | ret => rw [exec, execRet]; exact commit_answers s _

/-- Settles O8: a halted machine answers itself, a running one its fetch's fault or what its
instruction answers. -/
theorem everyStepAnswersANextState : Obligations.EveryStepAnswersANextState := by
  refine ⟨fun s => ?_, exec_answers⟩
  cases hr : s.run with
  | false => exact ⟨s, step_halted hr⟩
  | true =>
    obtain ⟨_, e⟩ | ⟨o, _, ⟨_, e⟩ | ⟨_, e⟩⟩ := step_cases hr
    · exact ⟨_, e⟩
    · exact ⟨_, e⟩
    · rw [e]; exact exec_answers _ s

/-! ### The step where an instruction lies at `pc` -/

/-- A running machine runs the instruction it fetches (40_engine_cycle.md R91). -/
theorem step_of_fetchInstr {s : State} {i : Instr} (hr : s.run = true)
    (h : s.fetchInstr = .ok i) : step s = exec i s := by
  simp only [step, hr, h, if_true]

/-- Where the bytes of an instruction lie at `pc`, a fetch begins with them. -/
theorem State.holdsAtPc.encode_prefix {s : State} {i : Instr} (h : s.holdsAtPc i) :
    encode i <+: s.fetchBytes := by
  rw [List.prefix_iff_getElem?]
  intro k hk
  obtain ⟨inMemory, hbyte⟩ := h k hk
  have fetched : k < 3 := by
    have := (Laws.EncodedShape.statement i).2
    have := i.opcode.length_le_three
    omega
  have haddr : s.pc.toNat + k = (s.pc + BitVec.ofNat 8 k).toNat := by
    rw [BitVec.toNat_add, BitVec.toNat_ofNat]
    omega
  rw [State.fetchBytes_getElem? fetched haddr, hbyte]

/-- Where the bytes of an instruction lie at `pc`, it is the instruction fetched: the decoder reads
it back from its encoding. -/
theorem State.holdsAtPc.fetchInstr_eq {s : State} {i : Instr} (h : s.holdsAtPc i) :
    s.fetchInstr = .ok i := by
  obtain ⟨rest, hbytes⟩ := h.encode_prefix
  simp only [State.fetchInstr, ← hbytes, decodeOfEncodeIsTheInstruction i rest]

/-- Settles O6. -/
theorem stepRunsTheInstructionAtPc : Obligations.StepRunsTheInstructionAtPc :=
  fun _ _ hr h => step_of_fetchInstr hr h.fetchInstr_eq

/-! ### HLT and the normal end -/

/-- HLT is one byte, so it lies whole at every address (40_engine_cycle.md R90). -/
theorem State.holdsAtPc_hlt {s : State} (h : s.opByte = 0x01#8) : s.holdsAtPc .hlt := by
  intro k hk
  obtain rfl : k = 0 := Nat.lt_one_iff.1 hk
  exact ⟨Nat.le_of_lt_succ s.pc.isLt, (congrArg s.memRead (BitVec.add_zero s.pc)).trans h⟩

theorem step_hlt {s : State} (hr : s.run = true) (h : s.opByte = 0x01#8) :
    step s = exec .hlt s :=
  stepRunsTheInstructionAtPc s .hlt hr (State.holdsAtPc_hlt h)

/-- Settles O14. -/
theorem hltHaltsNormally : Obligations.HltHaltsNormally :=
  fun s => ⟨rfl, ⟨_, rfl, haltEntry_halt s .hlt 0x01#8⟩, step_hlt⟩

/-- Of the shapes of a running machine's cycle only HLT's ends the run normally: a fault has another
cause, and every other shape leaves the machine running. -/
theorem StepEffect.opByte_of_endedNormally {s t : State} (h : StepEffect s t)
    (hr : s.run = true) (ht : t.endedNormally) : s.opByte = 0x01#8 := by
  obtain ⟨hrun, hcause⟩ := ht
  cases h with
  | fault c _ hh => exact absurd hcause hh
  | hlt ho => exact ho
  | writeReg | emit | compare | store | pop | ret | jump =>
    exact absurd (hr.symm.trans hrun) (by decide)

/-- Settles O11. -/
theorem onlyHltEndsARunNormally : Obligations.OnlyHltEndsARunNormally := by
  intro s t hr h
  constructor
  · exact (step_effect hr h).opByte_of_endedNormally hr
  · intro hop
    cases (step_hlt hr hop).symm.trans h
    exact ⟨rfl, rfl⟩

/-! ### The invalid-opcode fault -/

theorem regOperand_ne_invalidOpcode (a : Byte) : regOperand a ≠ .error .invalidOpcode := by
  obtain ⟨_, e⟩ | ⟨_, e⟩ := regOperand_cases a <;> simp [e]

theorem State.comparands_ne_invalidOpcode (s : State) (a b : Byte) :
    s.comparands a b ≠ .error .invalidOpcode := by
  cases hs : s.cfg.cmpSource with
  | memAtOperand => simp [State.comparands_memAtOperand hs]
  | reg => obtain ⟨_, _, e⟩ | ⟨_, e⟩ := State.comparands_reg hs a b <;> simp [e]

/-- A test of a register operand does not bring in the invalid-opcode fault. -/
theorem not_raises_invalidOpcode_regOperand_bind {s : State} {a : Byte} {f : RegIndex → Effect}
    (hf : ∀ r, ¬ Raises s (commit s (f r)) .invalidOpcode) :
    ¬ Raises s (commit s (regOperand a >>= f)) .invalidOpcode :=
  not_raises_bind (regOperand_ne_invalidOpcode a) hf

theorem not_raises_invalidOpcode_jumpIf {s : State} (hr : s.run = true) (taken : Bool) (a : Byte) :
    ¬ Raises s (jumpIf taken a s) .invalidOpcode :=
  not_raises_invalidOpcode_regOperand_bind fun r => by
    cases taken with
    | true => exact not_raises_of_run hr
    | false => exact not_raises_address_bind (by decide) fun next => not_raises_of_run hr

/-- No instruction takes the invalid-opcode fault: its tests are of register operands and addresses,
and each has another fault (60_exceptions.md R161 to R165). -/
theorem not_raises_invalidOpcode_exec (i : Instr) {s : State} (hr : s.run = true) :
    ¬ Raises s (exec i s) .invalidOpcode := by
  have completes {t : State} (ht : t.run = s.run) : ¬ Raises s (commit s (.ok t)) .invalidOpcode :=
    not_raises_of_run (ht.trans hr)
  cases i with
  | hlt =>
    rintro ⟨t, e, ht⟩
    cases e
    exact absurd ht.cause (by simp)
  | ldi a b | prn a =>
    exact not_raises_invalidOpcode_regOperand_bind fun r =>
      not_raises_address_bind (by decide) fun next => completes rfl
  | mul a b =>
    exact not_raises_invalidOpcode_regOperand_bind fun ra =>
      not_raises_invalidOpcode_regOperand_bind fun rb =>
        not_raises_address_bind (by decide) fun next => completes rfl
  | push a | pop a | call a =>
    exact not_raises_invalidOpcode_regOperand_bind fun r =>
      not_raises_address_bind (by decide) fun top =>
        not_raises_address_bind (by decide) fun next => completes rfl
  | ret =>
    simp only [exec, execRet]
    exact not_raises_address_bind (by decide) fun top => completes rfl
  | cmp a b =>
    exact not_raises_bind (s.comparands_ne_invalidOpcode a b) fun uv =>
      not_raises_address_bind (by decide) fun next => completes rfl
  | jmp a | jeq a | jne a => exact not_raises_invalidOpcode_jumpIf hr _ a

/-- Settles O12: outside the table the fetch takes the fault; inside it the cycle ends in the fault of
a missing operand byte or in what its instruction does, and neither is this fault. -/
theorem invalidOpcodeIsTakenExactlyOutsideTheTable :
    Obligations.InvalidOpcodeIsTakenExactlyOutsideTheTable := by
  intro s hr
  rw [mem_opcodeBytes_iff]
  obtain ⟨outside, e⟩ | ⟨o, ho, hstep⟩ := step_cases hr
  · exact iff_of_true (not_exists.2 outside) (raises_of_eq e)
  · refine iff_of_false (not_not.2 ⟨o, ho⟩) fun taken => ?_
    obtain ⟨_, e⟩ | ⟨_, e⟩ := hstep
    · exact absurd ((raises_of_eq e).cause_unique taken) (by decide)
    · rw [e] at taken
      exact not_raises_invalidOpcode_exec _ hr taken

end Sys2Proof.Machine

/-! ## LDI and PRN: what they write, their faults and their frames (41_load_and_output.md) -/

namespace Sys2Proof.Machine

/-! ### The operand fetch fault, and the completions -/

/-- Where a needed operand byte lies beyond memory, the cycle of a running machine takes
`MEM_ADDR_RANGE` before the instruction's own rule (40_engine_cycle.md R83). -/
theorem raises_step_of_operand_beyond_memory {s : State} (o : Opcode) (hr : s.run = true)
    (ho : s.opByte = o.encoding) (hp : 255 < s.pc.toNat + o.operandCount) :
    Raises s (step s) .memAddrRange := by
  obtain ⟨outside, _⟩ | ⟨o', ho', hstep⟩ := step_cases hr
  · exact absurd ho.symm (outside o)
  · obtain rfl : o' = o := Opcode.encoding_injective (ho'.trans ho)
    obtain ⟨_, e⟩ | ⟨inMemory, _⟩ := hstep
    · exact raises_of_eq e
    · omega

/-- LDI of a register, with room for the next address, completes (41_load_and_output.md R100). -/
theorem exec_ldi_completes {a : Byte} (b : Byte) {s : State} (ha : a.toNat < 8)
    (room : s.pc.toNat + 3 ≤ 255) :
    ∃ n : Byte, n.toNat = s.pc.toNat + 3 ∧
      exec (.ldi a b) s = .next ((s.setReg ⟨a.toNat, ha⟩ b).setPc n) := by
  obtain ⟨bad, _⟩ | ⟨_, far, _⟩ | ⟨_, n, _, hn, e⟩ := execLdi_cases a b s
  · omega
  · omega
  · exact ⟨n, hn, e⟩

/-- PRN of a register, with room for the next address, completes (41_load_and_output.md R103). -/
theorem exec_prn_completes {a : Byte} {s : State} (ha : a.toNat < 8)
    (room : s.pc.toNat + 2 ≤ 255) :
    ∃ n : Byte, n.toNat = s.pc.toNat + 2 ∧
      exec (.prn a) s = .next ((s.emit (s.reg ⟨a.toNat, ha⟩)).setPc n) := by
  obtain ⟨bad, _⟩ | ⟨_, far, _⟩ | ⟨_, n, _, hn, e⟩ := execPrn_cases a s
  · omega
  · omega
  · exact ⟨n, hn, e⟩

/-! ### The two instructions -/

/-- Settles O15: of LDI's three ends each meets one clause and excludes the other two. -/
theorem ldiWritesItsImmediate : Obligations.LdiWritesItsImmediate := by
  intro a b s
  have fetchFault (hr : s.run = true) (hop : s.opByte = 0x82#8) (hpc : 254 ≤ s.pc.toNat) :
      Raises s (step s) .memAddrRange :=
    raises_step_of_operand_beyond_memory .ldi hr hop (Nat.add_le_add_right hpc 2)
  obtain ⟨bad, e⟩ | ⟨named, far, e⟩ | ⟨named, n, room, hn, e⟩ := execLdi_cases a b s
  · exact ⟨rfl, fun _ => raises_of_eq e, by omega, by omega, fetchFault⟩
  · exact ⟨rfl, by omega, fun _ _ => raises_of_eq e, by omega, fetchFault⟩
  · refine ⟨rfl, by omega, by omega, fun _ _ => ⟨_, e, ?written, hn, ?others, rfl, fun _ => rfl,
      rfl, ⟨rfl, rfl, rfl, rfl, rfl⟩⟩, fetchFault⟩
    case written => rw [State.setPc_reg, State.setReg_reg_same]
    case others => exact keepsRegsBut_setReg b (t := s) (fun _ _ => rfl) rfl

/-- Settles O16: of PRN's three ends each meets one clause and excludes the other two. -/
theorem prnEmitsItsRegister : Obligations.PrnEmitsItsRegister := by
  intro a s
  have fetchFault (hr : s.run = true) (hop : s.opByte = 0x47#8) (hpc : s.pc.toNat = 255) :
      Raises s (step s) .memAddrRange :=
    raises_step_of_operand_beyond_memory .prn hr hop (Nat.add_le_add_right hpc.ge 1)
  obtain ⟨bad, e⟩ | ⟨named, far, e⟩ | ⟨named, n, room, hn, e⟩ := execPrn_cases a s
  · exact ⟨rfl, fun _ => raises_of_eq e, by omega, by omega, fetchFault⟩
  · exact ⟨rfl, by omega, fun _ _ => raises_of_eq e, by omega, fetchFault⟩
  · exact ⟨rfl, by omega, by omega, fun _ _ => ⟨_, e, rfl, hn, fun _ => rfl, rfl, fun _ => rfl,
      ⟨rfl, rfl, rfl, rfl, rfl⟩⟩, fetchFault⟩

/-! ### LDI, then PRN of the same register -/

/-- Settles O28: PRN reads the register LDI has just written, and LDI leaves the log. -/
theorem ldiThenPrnEmitsTheImmediate : Obligations.LdiThenPrnEmitsTheImmediate := by
  intro r imm s hr room
  obtain ⟨n, hn, ldi⟩ := exec_ldi_completes imm hr (s := s) (by omega)
  obtain ⟨m, _, prn⟩ := exec_prn_completes hr
    (s := (s.setReg ⟨r.toNat, hr⟩ imm).setPc n) (by rw [State.setPc_pc]; omega)
  refine ⟨_, _, ldi, prn, ?_⟩
  rw [State.setPc_out, State.emit_out, State.setPc_reg, State.setReg_reg_same, State.setPc_out,
    State.setReg_out]

end Sys2Proof.Machine

/-! ## The ALU, MUL and CMP, and what a compare decides (42_alu.md) -/

namespace Sys2Proof.Machine

/-! ### The operations of the ALU -/

theorem aluAdd_toNat (u v : Byte) : (aluAdd u v).toNat = (u.toNat + v.toNat) % 256 := by
  rw [aluAdd, BitVec.toNat_ofNat, Nat.mod_mod]

theorem aluMul_toNat (u v : Byte) : (aluMul u v).toNat = u.toNat * v.toNat % 256 := by
  rw [aluMul, BitVec.toNat_ofNat, Nat.mod_mod]

/-- Settles O26. -/
theorem aluOperationsCompute : Obligations.AluOperationsCompute := fun u v =>
  ⟨⟨_, rfl, aluAdd_toNat u v⟩, ⟨_, rfl, aluMul_toNat u v⟩,
    ⟨_, rfl, flagsCompare_aluCmp u v, exactlyOne_aluCmp u v⟩⟩

/-! ### MUL -/

/-- MUL of two registers, with room for the next address, completes (42_alu.md R115). -/
theorem exec_mul_completes {a b : Byte} {s : State} (ha : a.toNat < 8) (hb : b.toNat < 8)
    (room : s.pc.toNat + 3 ≤ 255) :
    ∃ n : Byte, n.toNat = s.pc.toNat + 3 ∧
      exec (.mul a b) s = .next ((s.setReg ⟨a.toNat, ha⟩
        (aluMul (s.reg ⟨a.toNat, ha⟩) (s.reg ⟨b.toNat, hb⟩))).setPc n) := by
  obtain ⟨bad, _⟩ | ⟨_, _, far, _⟩ | ⟨_, _, n, _, hn, e⟩ := execMul_cases a b s
  · omega
  · omega
  · exact ⟨n, hn, e⟩

/-- Settles O17: of MUL's three ends each meets one clause and excludes the other two. -/
theorem mulWritesTheLowByteOfTheProduct : Obligations.MulWritesTheLowByteOfTheProduct := by
  intro a b s
  have fetchFault (hr : s.run = true) (hop : s.opByte = 0xA2#8) (hpc : 254 ≤ s.pc.toNat) :
      Raises s (step s) .memAddrRange :=
    raises_step_of_operand_beyond_memory .mul hr hop (Nat.add_le_add_right hpc 2)
  obtain ⟨bad, e⟩ | ⟨hna, hnb, far, e⟩ | ⟨hna, hnb, n, room, hn, e⟩ := execMul_cases a b s
  · exact ⟨rfl, fun _ => raises_of_eq e, by omega, by omega, fetchFault⟩
  · exact ⟨rfl, by omega, fun _ _ _ => raises_of_eq e, by omega, fetchFault⟩
  · refine ⟨rfl, by omega, by omega, fun _ _ _ => ⟨_, e, ?product, hn, ?others, rfl, fun _ => rfl,
      rfl, ⟨rfl, rfl, rfl, rfl, rfl⟩⟩, fetchFault⟩
    case product => rw [State.setPc_reg, State.setReg_reg_same, aluMul_toNat]
    case others => exact keepsRegsBut_setReg _ (t := s) (fun _ _ => rfl) rfl

/-- Settles O29: PRN reads the register MUL has just written, and MUL leaves the log. -/
theorem mulThenPrnEmitsTheProduct : Obligations.MulThenPrnEmitsTheProduct := by
  intro a b s ha hb room
  obtain ⟨n, hn, mul⟩ := exec_mul_completes ha hb (s := s) (by omega)
  obtain ⟨m, _, prn⟩ := exec_prn_completes ha (s := (s.setReg ⟨a.toNat, ha⟩
    (aluMul (s.reg ⟨a.toNat, ha⟩) (s.reg ⟨b.toNat, hb⟩))).setPc n) (by rw [State.setPc_pc]; omega)
  refine ⟨_, _, _, mul, prn, rfl, ?_⟩
  rw [State.setPc_reg, State.setReg_reg_same, aluMul_toNat]

/-! ### CMP -/

/-- CMP of the values `u` and `v`, with room for the next address, completes (42_alu.md R118). -/
theorem exec_cmp_completes {a b : Byte} {s : State} {u v : Byte}
    (huv : s.comparands a b = .ok (u, v)) (room : s.pc.toNat + 3 ≤ 255) :
    ∃ n : Byte, n.toNat = s.pc.toNat + 3 ∧
      exec (.cmp a b) s = .next ((s.setFlags (aluCmp u v)).setPc n) := by
  obtain ⟨far, _⟩ | ⟨n, _, hn, e⟩ := execCmp_of_ok huv
  · omega
  · exact ⟨n, hn, e⟩

/-- The flags and the frame of an instruction that ends as a compare of `u` and `v` does
(42_alu.md R118). -/
theorem compare_flags_and_frame {s : State} {r : Result} {u v n : Byte}
    (hn : n.toNat = s.pc.toNat + 3) (e : r = .next ((s.setFlags (aluCmp u v)).setPc n)) :
    ∃ t, r = .next t ∧ FlagsCompare t.flags u v ∧ t.pc.toNat = s.pc.toNat + 3 ∧ KeepsRegs s t ∧
      KeepsMemory s t ∧ t.out = s.out ∧ KeepsStatus s t :=
  ⟨_, e, flagsCompare_aluCmp u v, hn, fun _ => rfl, fun _ => rfl, rfl, ⟨rfl, rfl, rfl, rfl, rfl⟩⟩

/-- Settles O18: under each source, each of CMP's ends meets one clause and excludes the others; the
clauses of the other source do not apply. -/
theorem cmpSetsTheFlagsFromItsSource : Obligations.CmpSetsTheFlagsFromItsSource := by
  intro a b s
  have fetchFault (hr : s.run = true) (hop : s.opByte = 0xA7#8) (hpc : 254 ≤ s.pc.toNat) :
      Raises s (step s) .memAddrRange :=
    raises_step_of_operand_beyond_memory .cmp hr hop (Nat.add_le_add_right hpc 2)
  cases hs : s.cfg.cmpSource with
  | memAtOperand =>
    obtain ⟨far, e⟩ | ⟨n, room, hn, e⟩ := execCmp_memAtOperand_cases a b hs
    · exact ⟨rfl, fun _ _ => raises_of_eq e, by omega, nofun, nofun, nofun, fetchFault⟩
    · exact ⟨rfl, by omega, fun _ _ => compare_flags_and_frame hn e, nofun, nofun, nofun,
        fetchFault⟩
  | reg =>
    obtain ⟨bad, e⟩ | ⟨hna, hnb, far, e⟩ | ⟨hna, hnb, n, room, hn, e⟩ := execCmp_reg_cases a b hs
    · exact ⟨rfl, nofun, nofun, fun _ _ => raises_of_eq e, by omega, by omega, fetchFault⟩
    · exact ⟨rfl, nofun, nofun, by omega, fun _ _ _ _ => raises_of_eq e, by omega, fetchFault⟩
    · exact ⟨rfl, nofun, nofun, by omega, by omega, fun _ _ _ _ => compare_flags_and_frame hn e,
        fetchFault⟩

/-! ### What a compare decides -/

/-- The first row of the table of 42_alu.md R120. -/
theorem aluCmp_self (u : Byte) : aluCmp u u = ⟨true, false, false⟩ := by
  simp [aluCmp]

/-- The second row of the table of 42_alu.md R120. -/
theorem aluCmp_of_lt {u v : Byte} (h : u.toNat < v.toNat) :
    aluCmp u v = ⟨false, true, false⟩ := by
  simp [aluCmp, h, h.ne, h.le]

/-- The third row of the table of 42_alu.md R120. -/
theorem aluCmp_of_gt {u v : Byte} (h : v.toNat < u.toNat) :
    aluCmp u v = ⟨false, false, true⟩ := by
  simp [aluCmp, h, h.ne', h.le]

/-- A jump that is taken goes to the address in its register (44_branch.md R150). -/
theorem jumpIf_taken {a : Byte} (ha : a.toNat < 8) (s : State) :
    jumpIf true a s = .next (s.setPc (s.reg ⟨a.toNat, ha⟩)) := by
  obtain ⟨bad, _⟩ | ⟨_, _, e⟩ | ⟨_, untaken, _⟩ | ⟨_, _, untaken, _⟩ := jumpIf_cases true a s
  · omega
  · exact e
  · cases untaken
  · cases untaken

/-- A jump that is not taken falls through, where there is room (44_branch.md R150). -/
theorem jumpIf_not_taken {a : Byte} {s : State} (ha : a.toNat < 8) (room : s.pc.toNat + 2 ≤ 255) :
    jumpIf false a s = .next (s.setPc (s.pc + 2#8)) := by
  obtain ⟨bad, _⟩ | ⟨_, taken, _⟩ | ⟨_, _, far, _⟩ | ⟨n, _, _, _, hn, e⟩ := jumpIf_cases false a s
  · omega
  · cases taken
  · omega
  · obtain rfl : n = s.pc + 2#8 := by bv_omega
    exact e

/-- With `FL.E` set JEQ jumps and JNE falls through (44_branch.md R152, R153). -/
theorem jumps_of_equal {r : Byte} {t : State} (hr : r.toNat < 8) (room : t.pc.toNat + 2 ≤ 255)
    (he : t.flags.e = true) :
    exec (.jeq r) t = .next (t.setPc (t.reg ⟨r.toNat, hr⟩)) ∧
      exec (.jne r) t = .next (t.setPc (t.pc + 2#8)) := by
  simp only [exec, execJeq, execJne, he]
  exact ⟨jumpIf_taken hr t, jumpIf_not_taken hr room⟩

/-- With `FL.E` clear JEQ falls through and JNE jumps (44_branch.md R152, R153). -/
theorem jumps_of_not_equal {r : Byte} {t : State} (hr : r.toNat < 8) (room : t.pc.toNat + 2 ≤ 255)
    (he : t.flags.e = false) :
    exec (.jeq r) t = .next (t.setPc (t.pc + 2#8)) ∧
      exec (.jne r) t = .next (t.setPc (t.reg ⟨r.toNat, hr⟩)) := by
  simp only [exec, execJeq, execJne, he]
  exact ⟨jumpIf_not_taken hr room, jumpIf_taken hr t⟩

/-- Settles O27: the CMP leaves the flags of the ALU's compare, whose row the order of the two values
gives, and the jumps read `FL.E` of it. -/
theorem compareOutcomeDecidesTheJump : Obligations.CompareOutcomeDecidesTheJump := by
  intro a b r s t u v hr _ huv room hcmp fits
  obtain ⟨n, _, e⟩ := exec_cmp_completes huv room
  have flags : t.flags = aluCmp u v := by cases e.symm.trans hcmp; rfl
  refine ⟨?equal, ?less, ?greater⟩
  case equal =>
    rintro rfl
    rw [aluCmp_self] at flags
    exact ⟨flags, jumps_of_equal hr fits (by rw [flags])⟩
  case less =>
    intro h
    rw [aluCmp_of_lt h] at flags
    exact ⟨flags, jumps_of_not_equal hr fits (by rw [flags])⟩
  case greater =>
    intro h
    rw [aluCmp_of_gt h] at flags
    exact ⟨flags, jumps_of_not_equal hr fits (by rw [flags])⟩

end Sys2Proof.Machine

/-! ## PUSH, POP, CALL and RET: what they store and load, faults and frames (43_stack.md) -/

namespace Sys2Proof.Machine

/-! ### The stack pointer beside a register operand -/

/-- Register 7 under its other name (10_state.md R12). -/
theorem State.reg_seven (s : State) : s.reg 7 = s.sp := rfl

/-- Where a push has room, the address it computes is the one below the stack pointer
(43_stack.md R131). -/
theorem State.pushedSp_of_room {s : State} {top : Byte}
    (room : s.cfg.stackFloor.toNat < s.sp.toNat) (ht : top.toNat + 1 = s.sp.toNat) :
    s.pushedSp = .ok top := by
  obtain ⟨_, top', e, ht'⟩ | ⟨low, _⟩ := s.pushedSp_cases
  · obtain rfl : top' = top := by bv_omega
    exact e
  · omega

/-- The register an operand byte names is the stack pointer exactly when the byte is 7
(10_state.md R12). -/
theorem spIndex_eq_operand_iff {a : Byte} (ha : a.toNat < 8) :
    spIndex = ⟨a.toNat, ha⟩ ↔ a.toNat = 7 := by
  rw [Fin.ext_iff, eq_comm]
  rfl

/-- A register operand read after a move of the stack pointer: decision D24. -/
theorem State.setSp_reg_operand (s : State) (top : Byte) {a : Byte} (ha : a.toNat < 8) :
    (s.setReg spIndex top).reg ⟨a.toNat, ha⟩ =
      if a.toNat = 7 then top else s.reg ⟨a.toNat, ha⟩ := by
  simp only [State.setReg_reg, spIndex_eq_operand_iff]

/-- The stack pointer after a write of a register operand: decision D24. -/
theorem State.setReg_operand_sp (s : State) (v : Byte) {a : Byte} (ha : a.toNat < 8) :
    (s.setReg ⟨a.toNat, ha⟩ v).sp = if a.toNat = 7 then v else s.sp := by
  simp only [State.sp_eq, State.setReg_reg, eq_comm (b := spIndex), spIndex_eq_operand_iff]

/-! ### The state a push leaves, and the state a pop leaves -/

/-- What PUSH and CALL leave: the stack pointer at `top`, the cell there holding `v`, `pc` at `n`. -/
def State.pushed (s : State) (top v n : Byte) : State :=
  ((s.setReg spIndex top).memWrite top v).setPc n

/-- The stack pointer a push leaves is the address it stored to. -/
theorem State.pushed_sp (s : State) (top v n : Byte) : (s.pushed top v n).reg 7 = top :=
  State.setReg_reg_same s spIndex top

/-- The cell a push stored to holds the byte pushed. -/
theorem State.pushed_memRead_top {s : State} (hwf : s.mem.wf = true) (top v n : Byte) :
    (s.pushed top v n).memRead top = v :=
  State.memWrite_memRead_same (s := s.setReg spIndex top) hwf top v

theorem State.pushed_keepsRegsBut (s : State) (top v n : Byte) :
    KeepsRegsBut (fun i => i = 7) s (s.pushed top v n) :=
  keepsRegsBut_setReg top (t := s) (fun _ _ => rfl) rfl

/-- The frame of a push: one register, one cell and `pc` are written (43_stack.md R132, R136). -/
theorem State.pushed_frame (s : State) (top v n : Byte) :
    KeepsRegsBut (fun i => i = 7) s (s.pushed top v n) ∧
      KeepsMemoryBut top s (s.pushed top v n) ∧ (s.pushed top v n).flags = s.flags ∧
      (s.pushed top v n).out = s.out ∧ KeepsStatus s (s.pushed top v n) :=
  ⟨s.pushed_keepsRegsBut top v n,
    fun _ hx => State.memWrite_memRead_other (s.setReg spIndex top) v hx.symm,
    rfl, rfl, ⟨rfl, rfl, rfl, rfl, rfl⟩⟩

/-- What POP leaves: register `i` holding `v`, then the stack pointer at `top`, `pc` at `n`. -/
def State.popped (s : State) (i : RegIndex) (v top n : Byte) : State :=
  ((s.setReg i v).setReg spIndex top).setPc n

/-- The stack pointer is written last, so it is `top` whatever register is popped into. -/
theorem State.popped_sp (s : State) (i : RegIndex) (v top n : Byte) :
    (s.popped i v top n).reg 7 = top :=
  State.setReg_reg_same (s.setReg i v) spIndex top

/-- A register other than the stack pointer holds the byte popped into it. -/
theorem State.popped_reg (s : State) {i : RegIndex} (v top n : Byte) (hi : i ≠ 7) :
    (s.popped i v top n).reg i = v :=
  (State.setReg_reg_other (s.setReg i v) spIndex i top hi.symm).trans (State.setReg_reg_same s i v)

theorem State.popped_keepsRegsBut (s : State) (i : RegIndex) (v top n : Byte) :
    KeepsRegsBut (fun j => j = i ∨ j = 7) s (s.popped i v top n) :=
  keepsRegsBut_setReg top (keepsRegsBut_setReg v (t := s) (fun _ _ => rfl) (.inl rfl)) (.inr rfl)

/-! ### PUSH -/

/-- Settles O19: of PUSH's four ends each meets one clause and excludes the other three. -/
theorem pushStoresBelowTheStackPointer : Obligations.PushStoresBelowTheStackPointer := by
  intro a s
  have fetchFault (hr : s.run = true) (hop : s.opByte = 0x45#8) (hpc : s.pc.toNat = 255) :
      Raises s (step s) .memAddrRange :=
    raises_step_of_operand_beyond_memory .push hr hop (Nat.add_le_add_right hpc.ge 1)
  rw [State.reg_seven]
  obtain ⟨bad, e⟩ | ⟨named, low, e⟩ | ⟨named, above, far, e⟩ |
    ⟨named, top, n, above, room, ht, hn, e⟩ := execPush_cases a s
  · exact ⟨rfl, fun _ => raises_of_eq e, by omega, by omega, by omega, fetchFault⟩
  · exact ⟨rfl, by omega, fun _ _ => raises_of_eq e, by omega, by omega, fetchFault⟩
  · exact ⟨rfl, by omega, by omega, fun _ _ _ => raises_of_eq e, by omega, fetchFault⟩
  · rw [State.setSp_reg_operand] at e
    exact ⟨rfl, by omega, by omega, by omega, fun _ _ _ => ⟨top, s.pushed top _ n,
      State.pushedSp_of_room above ht, ht, e, s.pushed_sp top _ n,
      fun hwf => State.pushed_memRead_top hwf top _ n, hn, s.pushed_frame top _ n⟩, fetchFault⟩

/-! ### POP -/

/-- Settles O20: of POP's four ends each meets one clause and excludes the other three. -/
theorem popLoadsFromTheStackPointer : Obligations.PopLoadsFromTheStackPointer := by
  intro a s
  have fetchFault (hr : s.run = true) (hop : s.opByte = 0x46#8) (hpc : s.pc.toNat = 255) :
      Raises s (step s) .memAddrRange :=
    raises_step_of_operand_beyond_memory .pop hr hop (Nat.add_le_add_right hpc.ge 1)
  obtain ⟨bad, e⟩ | ⟨named, s₁, hs₁, ends⟩ := execPop_cases a s
  · exact ⟨rfl, fun _ => raises_of_eq e, by omega, by omega, by omega, fetchFault⟩
  · have incremented : (if a.toNat = 7 then s.memRead (s.reg 7) else s.reg 7) = s₁.sp := by
      rw [hs₁, State.setReg_operand_sp, State.reg_seven]
    rw [incremented]
    obtain ⟨full, e⟩ | ⟨fits, far, e⟩ | ⟨top, n, fits, room, ht, hn, e⟩ := ends
    · exact ⟨rfl, by omega, fun _ _ => raises_of_eq e, by omega, by omega, fetchFault⟩
    · exact ⟨rfl, by omega, by omega, fun _ _ _ => raises_of_eq e, by omega, fetchFault⟩
    · subst hs₁
      refine ⟨rfl, by omega, by omega, by omega, fun _ _ _ =>
        ⟨s.popped ⟨a.toNat, named⟩ (s.memRead s.sp) top n, e, fun ha => ?loaded, ?moved, hn,
          s.popped_keepsRegsBut _ _ top n, fun _ => rfl, rfl, rfl, ⟨rfl, rfl, rfl, rfl, rfl⟩⟩,
        fetchFault⟩
      case loaded => exact s.popped_reg _ top n fun h => ha (Fin.ext_iff.1 h)
      case moved => rw [State.popped_sp, ht]

/-! ### CALL -/

/-- Settles O21: of CALL's four ends each meets one clause and excludes the other three. -/
theorem callPushesTheReturnAddressAndJumps : Obligations.CallPushesTheReturnAddressAndJumps := by
  intro a s
  have fetchFault (hr : s.run = true) (hop : s.opByte = 0x50#8) (hpc : s.pc.toNat = 255) :
      Raises s (step s) .memAddrRange :=
    raises_step_of_operand_beyond_memory .call hr hop (Nat.add_le_add_right hpc.ge 1)
  rw [State.reg_seven]
  obtain ⟨bad, e⟩ | ⟨named, low, e⟩ | ⟨named, above, far, e⟩ |
    ⟨named, top, back, above, room, ht, hback, e⟩ := execCall_cases a s
  · exact ⟨rfl, fun _ => raises_of_eq e, by omega, by omega, by omega, fetchFault⟩
  · exact ⟨rfl, by omega, fun _ _ => raises_of_eq e, by omega, by omega, fetchFault⟩
  · exact ⟨rfl, by omega, by omega, fun _ _ _ => raises_of_eq e, by omega, fetchFault⟩
  · refine ⟨rfl, by omega, by omega, by omega, fun _ _ _ => ⟨top, s.pushed top back _,
      State.pushedSp_of_room above ht, ht, e, s.pushed_sp top back _, fun hwf => ?stored,
      s.setSp_reg_operand top named, s.pushed_frame top back _⟩, fetchFault⟩
    rw [State.pushed_memRead_top hwf, hback]

/-! ### RET -/

/-- An instruction of one byte lies whole at every address (30_encoding.md R60). -/
theorem State.holdsAtPc_of_one_byte {s : State} {i : Instr} (h : encode i = [s.opByte]) :
    s.holdsAtPc i := by
  unfold State.holdsAtPc
  rw [h]
  intro k hk
  obtain rfl : k = 0 := Nat.lt_one_iff.1 hk
  exact ⟨Nat.le_of_lt_succ s.pc.isLt, congrArg s.memRead (BitVec.add_zero s.pc)⟩

theorem step_ret {s : State} (hr : s.run = true) (h : s.opByte = 0x11#8) :
    step s = exec .ret s :=
  stepRunsTheInstructionAtPc s .ret hr (State.holdsAtPc_of_one_byte (by rw [h]; rfl))

/-- Settles O22: each of RET's two ends meets one clause and excludes the other. -/
theorem retPopsIntoTheProgramCounter : Obligations.RetPopsIntoTheProgramCounter := by
  intro s
  rw [State.reg_seven]
  obtain ⟨full, e⟩ | ⟨top, fits, ht, e⟩ := execRet_cases s
  · exact ⟨rfl, fun _ => raises_of_eq e, by omega, step_ret⟩
  · refine ⟨rfl, by omega, fun _ => ⟨_, e, rfl, ?moved, ?others, fun _ => rfl, rfl, rfl,
      ⟨rfl, rfl, rfl, rfl, rfl⟩⟩, step_ret⟩
    case moved => rw [← ht]; exact congrArg _ (State.setReg_reg_same s spIndex top)
    case others => exact keepsRegsBut_setReg top (t := s) (fun _ _ => rfl) rfl

/-! ### PUSH, then POP of the same register -/

/-- What leaves the machine running is no fault taken. -/
theorem ne_raise_of_run {r : Result} {s t : State} {c : Cause} (h : r = .next t)
    (ht : t.run = true) : r ≠ .next (s.raise c) := fun e =>
  not_raises_of_run ht (raises_of_eq (h.symm.trans e))

/-- A PUSH that leaves the machine running has completed: the byte it pushed is the stack pointer it
leaves for R7, and else the register's (43_stack.md R132). -/
theorem exec_push_of_run {a : Byte} {s t : State} (h : exec (.push a) s = .next t)
    (ht : t.run = true) :
    ∃ (ha : a.toNat < 8) (top n : Byte), top.toNat + 1 = s.sp.toNat ∧
      t = s.pushed top (if a.toNat = 7 then top else s.reg ⟨a.toNat, ha⟩) n := by
  obtain ⟨_, e⟩ | ⟨_, _, e⟩ | ⟨_, _, _, e⟩ | ⟨ha, top, n, _, _, htop, _, e⟩ := execPush_cases a s
  · exact absurd e (ne_raise_of_run h ht)
  · exact absurd e (ne_raise_of_run h ht)
  · exact absurd e (ne_raise_of_run h ht)
  · rw [State.setSp_reg_operand] at e
    cases e.symm.trans h
    exact ⟨ha, top, n, htop, rfl⟩

/-- A POP that leaves the machine running has completed: the value it incremented is the popped byte
for R7, and else the stack pointer (43_stack.md R134). -/
theorem exec_pop_of_run {a : Byte} {s t : State} (h : exec (.pop a) s = .next t)
    (ht : t.run = true) :
    ∃ (ha : a.toNat < 8) (top n : Byte),
      top.toNat = (if a.toNat = 7 then s.memRead s.sp else s.sp).toNat + 1 ∧
      t = s.popped ⟨a.toNat, ha⟩ (s.memRead s.sp) top n := by
  obtain ⟨_, e⟩ | ⟨ha, _, rfl, ⟨_, e⟩ | ⟨_, _, e⟩ | ⟨top, n, _, _, htop, _, e⟩⟩ := execPop_cases a s
  · exact absurd e (ne_raise_of_run h ht)
  · exact absurd e (ne_raise_of_run h ht)
  · exact absurd e (ne_raise_of_run h ht)
  · rw [State.setReg_operand_sp] at htop
    cases e.symm.trans h
    exact ⟨ha, top, n, htop, rfl⟩

/-- Settles O30: the value POP increments is the stack pointer PUSH left, for R7 too because PUSH R7
stored it; so the stack pointer is back, another register pops its own byte, and POP writes no
cell. -/
theorem pushThenPopRestoresTheRegisters : Obligations.PushThenPopRestoresTheRegisters := by
  intro r s t u hwf _ push ht pop hu
  obtain ⟨hr, top, n, htop, rfl⟩ := exec_push_of_run push ht
  obtain ⟨_, restored, m, hrestored, rfl⟩ := exec_pop_of_run pop hu
  refine ⟨fun i => ?_, rfl⟩
  rw [← State.reg_seven, State.pushed_sp, State.pushed_memRead_top hwf] at hrestored ⊢
  by_cases h7 : i = 7
  · rw [h7, State.popped_sp]
    have incremented : restored.toNat = top.toNat + 1 := by
      split at hrestored <;> exact hrestored
    exact BitVec.eq_of_toNat_eq (incremented.trans htop)
  · by_cases hi : i = ⟨r.toNat, hr⟩
    · have not_seven : r.toNat ≠ 7 := fun h => h7 (hi.trans (Fin.ext h))
      rw [hi, State.popped_reg _ _ _ _ (hi ▸ h7), if_neg not_seven]
    · exact (State.popped_keepsRegsBut _ _ _ restored m i (not_or.2 ⟨hi, h7⟩)).trans
        (s.pushed_keepsRegsBut top _ n i h7)

/-! ### CALL, then RET -/

/-- A CALL that leaves the machine running has completed, with the return address pushed
(43_stack.md R136). -/
theorem exec_call_of_run {a : Byte} {s t : State} (h : exec (.call a) s = .next t)
    (ht : t.run = true) :
    ∃ top back n : Byte, top.toNat + 1 = s.sp.toNat ∧ back.toNat = s.pc.toNat + 2 ∧
      t = s.pushed top back n := by
  obtain ⟨_, e⟩ | ⟨_, _, e⟩ | ⟨_, _, _, e⟩ | ⟨_, top, back, _, _, htop, hback, e⟩ :=
    execCall_cases a s
  · exact absurd e (ne_raise_of_run h ht)
  · exact absurd e (ne_raise_of_run h ht)
  · exact absurd e (ne_raise_of_run h ht)
  · cases e.symm.trans h
    exact ⟨top, back, _, htop, hback, rfl⟩

/-- Settles O31: the stack pointer CALL left lies below the one it found, so RET has room, and the
cell RET reads holds the return address. -/
theorem callThenRetResumesAfterTheCall : Obligations.CallThenRetResumesAfterTheCall := by
  intro a s t u hwf _ call ht hsp hcell
  obtain ⟨top, back, n, htop, hback, rfl⟩ := exec_call_of_run call ht
  rw [State.pushed_sp] at hsp hcell
  rw [State.pushed_memRead_top hwf] at hcell
  have below : top.toNat < 255 := by have := s.sp.isLt; omega
  obtain ⟨_, _, completes, _⟩ := retPopsIntoTheProgramCounter u
  rw [hsp, hcell] at completes
  obtain ⟨v, e, hpc, hv, _⟩ := completes below
  exact ⟨v, e, by rw [hpc, hback], BitVec.eq_of_toNat_eq (hv.trans htop)⟩

end Sys2Proof.Machine

/-! ## JMP, JEQ and JNE: where they go, their faults and their frames (44_branch.md) -/

namespace Sys2Proof.Machine

/-! ### The rule the three jumps share -/

/-- The frame of a jump: everything but `pc` is as before (44_branch.md R150). -/
def KeepsAllButPc (s t : State) : Prop :=
  KeepsRegs s t ∧ KeepsMemory s t ∧ t.flags = s.flags ∧ t.out = s.out ∧ KeepsStatus s t

theorem State.setPc_keepsAllButPc (s : State) (n : Byte) : KeepsAllButPc s (s.setPc n) :=
  ⟨fun _ => rfl, fun _ => rfl, rfl, rfl, ⟨rfl, rfl, rfl, rfl, rfl⟩⟩

/-- What a jump does, by its index, whether it is taken, and the room for the next address: of its
four ends each meets one clause and excludes the other three (44_branch.md R150). -/
theorem jumpIf_clauses (taken : Bool) (a : Byte) (s : State) :
    (8 ≤ a.toNat → Raises s (jumpIf taken a s) .regIndexRange) ∧
    (∀ h : a.toNat < 8, taken = true → ∃ t, jumpIf taken a s = .next t ∧
      t.pc = s.reg ⟨a.toNat, h⟩ ∧ KeepsAllButPc s t) ∧
    (a.toNat < 8 → taken = false → 255 < s.pc.toNat + 2 →
      Raises s (jumpIf taken a s) .memAddrRange) ∧
    (a.toNat < 8 → taken = false → s.pc.toNat + 2 ≤ 255 → ∃ t, jumpIf taken a s = .next t ∧
      t.pc.toNat = s.pc.toNat + 2 ∧ KeepsAllButPc s t) := by
  obtain ⟨bad, e⟩ | ⟨named, rfl, e⟩ | ⟨named, rfl, far, e⟩ | ⟨n, named, rfl, room, hn, e⟩ :=
    jumpIf_cases taken a s
  · exact ⟨fun _ => raises_of_eq e, by omega, by omega, by omega⟩
  · exact ⟨by omega, fun _ _ => ⟨_, e, rfl, s.setPc_keepsAllButPc _⟩, nofun, nofun⟩
  · exact ⟨by omega, nofun, fun _ _ _ => raises_of_eq e, by omega⟩
  · exact ⟨by omega, nofun, by omega, fun _ _ _ => ⟨_, e, hn, s.setPc_keepsAllButPc n⟩⟩

/-! ### The three instructions -/

/-- Settles O23: JMP is the jump that is always taken. -/
theorem jmpLoadsTheProgramCounter : Obligations.JmpLoadsTheProgramCounter := by
  intro a s
  obtain ⟨badIndex, jumps, _⟩ := jumpIf_clauses true a s
  exact ⟨rfl, badIndex, fun named => jumps named rfl, fun hr hop hpc =>
    raises_step_of_operand_beyond_memory .jmp hr hop (Nat.add_le_add_right hpc.ge 1)⟩

/-- Settles O24: JEQ is the jump taken with `FL.E` set. -/
theorem jeqJumpsWhenEqual : Obligations.JeqJumpsWhenEqual := by
  intro a s
  obtain ⟨badIndex, jumps, noNextAddress, fallsThrough⟩ := jumpIf_clauses s.flags.e a s
  exact ⟨rfl, badIndex, jumps, noNextAddress, fallsThrough, fun hr hop hpc =>
    raises_step_of_operand_beyond_memory .jeq hr hop (Nat.add_le_add_right hpc.ge 1)⟩

/-- Settles O25: JNE is the jump taken with `FL.E` clear. -/
theorem jneJumpsWhenNotEqual : Obligations.JneJumpsWhenNotEqual := by
  intro a s
  have clauses := jumpIf_clauses (!s.flags.e) a s
  simp only [Bool.not_eq_true', Bool.not_eq_false'] at clauses
  obtain ⟨badIndex, jumps, noNextAddress, fallsThrough⟩ := clauses
  exact ⟨rfl, badIndex, jumps, noNextAddress, fallsThrough, fun hr hop hpc =>
    raises_step_of_operand_beyond_memory .jne hr hop (Nat.add_le_add_right hpc.ge 1)⟩

/-! ### Exactly one of JEQ and JNE jumps -/

/-- Settles O32: by `FL.E` one of the two goes to `x[r]` and the other to `pc + 2`, another
address. -/
theorem exactlyOneOfJeqAndJneJumps : Obligations.ExactlyOneOfJeqAndJneJumps := by
  intro r s named room differs
  cases he : s.flags.e with
  | true =>
    obtain ⟨jeq, jne⟩ := jumps_of_equal named room he
    exact ⟨_, _, jeq, jne, iff_of_true rfl differs.symm, iff_of_true rfl rfl⟩
  | false =>
    obtain ⟨jeq, jne⟩ := jumps_of_not_equal named room he
    exact ⟨_, _, jeq, jne, iff_of_false differs.symm (not_not.2 rfl),
      iff_of_false differs.symm (by decide)⟩

end Sys2Proof.Machine

/-! ## Exceptions: the order of the faults, their precision, and the trace tap (60_exceptions.md) -/

namespace Sys2Proof.Machine

/-! ### What a cycle does to the status registers -/

/-- A cycle takes a fault, or halts at HLT, or leaves the four status registers. -/
theorem StepEffect.status_cases {s t : State} (h : StepEffect s t) :
    (∃ c, c ≠ .hlt ∧ t = s.raise c) ∨ (s.opByte = 0x01#8 ∧ t = s.halt .hlt 0x01#8) ∨
      KeepsStatus s t := by
  cases h with
  | fault c _ hh => exact .inl ⟨c, hh, rfl⟩
  | hlt ho => exact .inr (.inl ⟨ho, rfl⟩)
  | writeReg | emit | compare | store | pop | ret | jump =>
    exact .inr (.inr ⟨rfl, rfl, rfl, rfl, rfl⟩)

theorem State.not_faulted_of_run {t : State} (h : t.run = true) : ¬ t.faulted :=
  fun ⟨halted, _⟩ => absurd (h.symm.trans halted) (by decide)

/-- Settles O10: of what a cycle does to the status registers, only a fault leaves the machine
faulted. -/
theorem faultsArePrecise : Obligations.FaultsArePrecise := by
  intro s t hr h ht
  obtain ⟨c, _, rfl⟩ | ⟨_, rfl⟩ | kept := (step_effect hr h).status_cases
  · exact ⟨haltEntry_halt s c _, rfl⟩
  · exact absurd ht fun ⟨_, notHlt⟩ => notHlt rfl
  · exact absurd ht (State.not_faulted_of_run (kept.run.trans hr))

/-! ### The tests of each row of the opcode table -/

/-- The row's register operands fail their test (60_exceptions.md R163). -/
def State.badIndexOf (s : State) : Opcode → Prop
  | .hlt | .ret => False
  | .ldi | .prn | .push | .pop | .call | .jmp | .jeq | .jne => 8 ≤ s.aByte.toNat
  | .mul => 8 ≤ s.aByte.toNat ∨ 8 ≤ s.bByte.toNat
  | .cmp => s.cfg.cmpSource = .reg ∧ (8 ≤ s.aByte.toNat ∨ 8 ≤ s.bByte.toNat)

/-- The row's stack pointer fails its test (60_exceptions.md R164). -/
def State.badStackOf (s : State) : Opcode → Prop
  | .push | .call => s.sp.toNat ≤ s.cfg.stackFloor.toNat
  | .pop => (if s.aByte.toNat = 7 then s.memRead s.sp else s.sp).toNat = 255
  | .ret => s.sp.toNat = 255
  | .hlt | .ldi | .prn | .mul | .cmp | .jmp | .jeq | .jne => False

/-- The row's next or return address fails its test, where the row needs one
(60_exceptions.md R162). -/
def State.badNextOf (s : State) : Opcode → Prop
  | .ldi | .mul | .cmp => 255 < s.pc.toNat + 3
  | .prn | .push | .pop | .call => 255 < s.pc.toNat + 2
  | .jeq => s.flags.e = false ∧ 255 < s.pc.toNat + 2
  | .jne => s.flags.e = true ∧ 255 < s.pc.toNat + 2
  | .hlt | .ret | .jmp => False

section RawBytes

variable {s : State} {o : Opcode}

/-- The index test of the raw bytes is the row's. -/
theorem badRegisterIndex_iff (ho : s.opByte = o.encoding) :
    badRegisterIndex s ↔ s.badIndexOf o := by
  simp only [badRegisterIndex, ho]
  cases o <;> simp [State.badIndexOf, Opcode.encoding]

/-- Only 255 has no next byte. -/
theorem above_255_iff (v : Byte) : 255 < v.toNat + 1 ↔ v.toNat = 255 := by
  have := v.isLt
  omega

/-- The stack test of the raw bytes is the row's. -/
theorem badStackPointer_iff (ho : s.opByte = o.encoding) :
    badStackPointer s ↔ s.badStackOf o := by
  simp only [badStackPointer, ho, above_255_iff]
  cases o with
  | pop =>
    by_cases h7 : s.aByte.toNat = 7 <;>
      simp [State.badStackOf, Opcode.encoding, BitVec.toNat_eq, h7]
  | hlt | ldi | prn | mul | push | call | ret | cmp | jmp | jeq | jne =>
    simp [State.badStackOf, Opcode.encoding]

/-- The address test of the raw bytes is the row's. -/
theorem badNextAddress_iff (ho : s.opByte = o.encoding) :
    badNextAddress s ↔ s.badNextOf o := by
  simp only [badNextAddress, ho]
  cases o <;> simp [State.badNextOf, Opcode.encoding]

end RawBytes

/-! ### Every instruction tests in one order -/

/-- The answer `r`, given in state `s`, is the fault of the first test that fails, of the tests of
register operands, of the stack pointer and of the next address in this order, and no fault where
none fails (60_exceptions.md R165). -/
inductive EndsInOrder (s : State) (badIndex badStack badNext : Prop) (r : Result) : Prop where
  | index (hi : badIndex) (e : r = .next (s.raise .regIndexRange))
  | stack (hi : ¬ badIndex) (hs : badStack) (e : r = .next (s.raise .spRange))
  | next (hi : ¬ badIndex) (hs : ¬ badStack) (hn : badNext)
      (e : r = .next (s.raise .memAddrRange))
  | completes (hi : ¬ badIndex) (hs : ¬ badStack) (hn : ¬ badNext) (t : State)
      (e : r = .next t) (ht : ¬ t.faulted)

/-- A jump tests its index, then the next address where it is not taken. -/
theorem jumpIf_endsInOrder {s : State} (hr : s.run = true) {taken : Bool} (a : Byte)
    {badNext : Prop} (hn : badNext ↔ taken = false ∧ 255 < s.pc.toNat + 2) :
    EndsInOrder s (8 ≤ a.toNat) False badNext (jumpIf taken a s) := by
  rw [hn]
  obtain ⟨bad, e⟩ | ⟨named, rfl, e⟩ | ⟨named, untaken, far, e⟩ | ⟨n, named, _, room, _, e⟩ :=
    jumpIf_cases taken a s
  · exact .index bad e
  · exact .completes (not_le.2 named) id nofun _ e (State.not_faulted_of_run hr)
  · exact .next (not_le.2 named) id ⟨untaken, far⟩ e
  · exact .completes (not_le.2 named) id (fun h => not_lt.2 room h.2) _ e
      (State.not_faulted_of_run hr)

/-- Every instruction of a running machine tests in the order of 60_exceptions.md R165. -/
theorem exec_endsInOrder {s : State} (hr : s.run = true) (o : Opcode) :
    EndsInOrder s (s.badIndexOf o) (s.badStackOf o) (s.badNextOf o)
      (exec (o.withOperands s.aByte s.bByte) s) := by
  have running {t : State} (ht : t.run = s.run) : ¬ t.faulted :=
    State.not_faulted_of_run (ht.trans hr)
  cases o with
  | hlt => exact .completes id id id _ rfl fun ⟨_, notHlt⟩ => notHlt rfl
  | ldi =>
    obtain ⟨bad, e⟩ | ⟨named, far, e⟩ | ⟨named, n, room, _, e⟩ := execLdi_cases s.aByte s.bByte s
    · exact .index bad e
    · exact .next (not_le.2 named) id far e
    · exact .completes (not_le.2 named) id (not_lt.2 room) _ e (running rfl)
  | prn =>
    obtain ⟨bad, e⟩ | ⟨named, far, e⟩ | ⟨named, n, room, _, e⟩ := execPrn_cases s.aByte s
    · exact .index bad e
    · exact .next (not_le.2 named) id far e
    · exact .completes (not_le.2 named) id (not_lt.2 room) _ e (running rfl)
  | mul =>
    have named (ha : s.aByte.toNat < 8) (hb : s.bByte.toNat < 8) : ¬ s.badIndexOf .mul :=
      not_or.2 ⟨not_le.2 ha, not_le.2 hb⟩
    obtain ⟨bad, e⟩ | ⟨ha, hb, far, e⟩ | ⟨ha, hb, n, room, _, e⟩ :=
      execMul_cases s.aByte s.bByte s
    · exact .index bad e
    · exact .next (named ha hb) id far e
    · exact .completes (named ha hb) id (not_lt.2 room) _ e (running rfl)
  | push =>
    obtain ⟨bad, e⟩ | ⟨named, low, e⟩ | ⟨named, above, far, e⟩ |
      ⟨named, top, n, above, room, _, _, e⟩ := execPush_cases s.aByte s
    · exact .index bad e
    · exact .stack (not_le.2 named) low e
    · exact .next (not_le.2 named) (not_le.2 above) far e
    · exact .completes (not_le.2 named) (not_le.2 above) (not_lt.2 room) _ e (running rfl)
  | call =>
    obtain ⟨bad, e⟩ | ⟨named, low, e⟩ | ⟨named, above, far, e⟩ |
      ⟨named, top, back, above, room, _, _, e⟩ := execCall_cases s.aByte s
    · exact .index bad e
    · exact .stack (not_le.2 named) low e
    · exact .next (not_le.2 named) (not_le.2 above) far e
    · exact .completes (not_le.2 named) (not_le.2 above) (not_lt.2 room) _ e (running rfl)
  | pop =>
    obtain ⟨bad, e⟩ | ⟨named, _, rfl, ends⟩ := execPop_cases s.aByte s
    · exact .index bad e
    · rw [State.setReg_operand_sp] at ends
      obtain ⟨full, e⟩ | ⟨fits, far, e⟩ | ⟨top, n, fits, room, _, _, e⟩ := ends
      · exact .stack (not_le.2 named) full e
      · exact .next (not_le.2 named) fits.ne far e
      · exact .completes (not_le.2 named) fits.ne (not_lt.2 room) _ e (running rfl)
  | ret =>
    obtain ⟨full, e⟩ | ⟨top, fits, _, e⟩ := execRet_cases s
    · exact .stack id full e
    · exact .completes id fits.ne id _ e (running rfl)
  | cmp =>
    cases hs : s.cfg.cmpSource with
    | memAtOperand =>
      have unnamed : ¬ s.badIndexOf .cmp := fun h => by cases hs.symm.trans h.1
      obtain ⟨far, e⟩ | ⟨n, room, _, e⟩ := execCmp_memAtOperand_cases s.aByte s.bByte hs
      · exact .next unnamed id far e
      · exact .completes unnamed id (not_lt.2 room) _ e (running rfl)
    | reg =>
      have named (ha : s.aByte.toNat < 8) (hb : s.bByte.toNat < 8) : ¬ s.badIndexOf .cmp :=
        fun h => not_or.2 ⟨not_le.2 ha, not_le.2 hb⟩ h.2
      obtain ⟨bad, e⟩ | ⟨ha, hb, far, e⟩ | ⟨ha, hb, n, room, _, e⟩ :=
        execCmp_reg_cases s.aByte s.bByte hs
      · exact .index ⟨hs, bad⟩ e
      · exact .next (named ha hb) id far e
      · exact .completes (named ha hb) id (not_lt.2 room) _ e (running rfl)
  | jmp => exact jumpIf_endsInOrder hr s.aByte (by simp [State.badNextOf])
  | jeq => exact jumpIf_endsInOrder hr s.aByte Iff.rfl
  | jne => exact jumpIf_endsInOrder hr s.aByte (by simp [State.badNextOf])

/-! ### The fault a cycle takes -/

/-- A cycle of a running machine takes the one fault that is the first of the order, or there is
none and it takes no fault (60_exceptions.md R165). -/
theorem step_first_fault {s : State} (hr : s.run = true) :
    (∃ c, (∀ d, firstFaultIs s d ↔ d = c) ∧ step s = .next (s.raise c)) ∨
      (noFault s ∧ ∃ t, step s = .next t ∧ ¬ t.faulted) := by
  obtain ⟨outside, e⟩ | ⟨o, ho, hstep⟩ := step_cases hr
  · have unknown : s.opByte ∉ opcodeBytes := (mem_opcodeBytes_iff _).not.2 (not_exists.2 outside)
    exact .inl ⟨_, fun d => by cases d <;> simp [firstFaultIs, unknown], e⟩
  · have known : s.opByte ∈ opcodeBytes := (mem_opcodeBytes_iff _).2 ⟨o, ho⟩
    rw [← operandCountOf_encoding, ho] at hstep
    obtain ⟨beyond, e⟩ | ⟨inMemory, e⟩ := hstep
    · exact .inl ⟨_, fun d => by cases d <;> simp [firstFaultIs, known, beyond], e⟩
    · have ends := exec_endsInOrder hr o
      rw [← badRegisterIndex_iff ho.symm, ← badStackPointer_iff ho.symm,
        ← badNextAddress_iff ho.symm, ← e] at ends
      cases ends with
      | index hi e =>
        exact .inl ⟨_, fun d => by cases d <;> simp [firstFaultIs, known, inMemory, hi], e⟩
      | stack hi hs e =>
        exact .inl ⟨_, fun d => by cases d <;> simp [firstFaultIs, known, inMemory, hi, hs], e⟩
      | next hi hs hn e =>
        exact .inl ⟨_, fun d => by cases d <;> simp [firstFaultIs, known, inMemory, hi, hs, hn], e⟩
      | completes hi hs hn t e ht =>
        exact .inr ⟨fun d => by cases d <;> simp [firstFaultIs, known, inMemory, hi, hs, hn],
          t, e, ht⟩

/-- Settles O9: a cycle takes the first fault there is; where there is none it halts at HLT, and
elsewhere it leaves the status registers, for it has taken no fault. -/
theorem firstFaultThatAppliesIsTaken : Obligations.FirstFaultThatAppliesIsTaken := by
  intro s hr
  have halts (hop : s.opByte = 0x01#8) : ∃ t, step s = .next t ∧ HaltEntry s .hlt 0x01#8 t :=
    ⟨_, step_hlt hr hop, haltEntry_halt s .hlt 0x01#8⟩
  obtain ⟨c, first, e⟩ | ⟨clean, t, e, ht⟩ := step_first_fault hr
  · refine ⟨fun d hd => ?_, fun clean => absurd ((first c).2 rfl) (clean c), fun _ => halts⟩
    obtain rfl := (first d).1 hd
    exact raises_of_eq e
  · refine ⟨fun c hc => absurd hc (clean c), fun _ hop => ⟨t, e, ?_⟩, fun _ => halts⟩
    obtain ⟨c, hc, rfl⟩ | ⟨isHlt, _⟩ | kept := (step_effect hr e).status_cases
    · exact absurd ⟨rfl, hc⟩ ht
    · exact absurd isHlt hop
    · exact kept

/-! ### The trace tap -/

/-- The byte `k` after `pc`, where there is one, is `MemRead` of its address (20_memory.md R41). -/
theorem State.byteAt_pc_add {s : State} {k : Nat} (h : s.pc.toNat + k ≤ 255) :
    s.byteAt (s.pc.toNat + k) = some (s.memRead (s.pc + BitVec.ofNat 8 k)) := by
  rw [State.byteAt_of_le h, State.memRead_pc_add h]

/-- Settles O46: each byte after the first is shown where its address is at most 255. -/
theorem snapshotShowsTheBytesThatExist : Obligations.SnapshotShowsTheBytesThatExist := by
  intro s
  exact ⟨rfl, rfl, rfl,
    fun h => State.byteAt_pc_add (k := 1) (by omega), fun h => State.byteAt_of_gt (by omega),
    fun h => State.byteAt_pc_add (k := 2) (by omega), fun h => State.byteAt_of_gt (by omega)⟩

end Sys2Proof.Machine

/-! ## Loading and placing: what the host stores, what the next cycle runs (70_reset_and_hazards.md) -/

namespace Sys2Proof.Machine

/-! ### Storing bytes at consecutive addresses -/

/-- Storing bytes writes memory only. -/
theorem State.storeBytes_eq (s : State) (n : Nat) (bytes : List Byte) :
    s.storeBytes n bytes = { s with mem := (s.storeBytes n bytes).mem } := by
  induction bytes generalizing s n with
  | nil => rfl
  | cons v rest ih =>
    unfold State.storeBytes
    split
    · exact ih { s with mem := s.mem.write n v } (n + 1)
    · rfl

@[simp] theorem State.storeBytes_pc (s : State) (n : Nat) (bytes : List Byte) :
    (s.storeBytes n bytes).pc = s.pc := by rw [State.storeBytes_eq]

@[simp] theorem State.storeBytes_run (s : State) (n : Nat) (bytes : List Byte) :
    (s.storeBytes n bytes).run = s.run := by rw [State.storeBytes_eq]

/-- Storing bytes keeps the canonical form. -/
theorem State.storeBytes_wf {s : State} (hwf : s.mem.wf = true) (n : Nat) (bytes : List Byte) :
    (s.storeBytes n bytes).mem.wf = true := by
  induction bytes generalizing s n with
  | nil => exact hwf
  | cons v rest ih =>
    unfold State.storeBytes
    split
    · next hn =>
      exact ih (s := { s with mem := s.mem.write n v }) (Memory.wf_write v hn hwf) (n + 1)
    · exact hwf

/-- What each cell reads after bytes are stored from address `n` on: below `n` and past the last byte
what it read before, and else the byte of its place. -/
theorem State.storeBytes_read {s : State} (hwf : s.mem.wf = true) (n : Nat) (bytes : List Byte)
    {x : Nat} (hx : x < memSize) :
    (s.storeBytes n bytes).mem.read x =
      if x < n then s.mem.read x else bytes.getD (x - n) (s.mem.read x) := by
  induction bytes generalizing s n with
  | nil => simp [State.storeBytes]
  | cons v rest ih =>
    unfold State.storeBytes
    split
    · next hn =>
      rw [ih (s := { s with mem := s.mem.write n v }) (Memory.wf_write v hn hwf) (n + 1),
        Memory.read_write n v x hwf]
      obtain below | rfl | above := Nat.lt_trichotomy x n
      · rw [if_pos (by omega), if_neg (by omega), if_pos below]
      · simp
      · obtain ⟨k, rfl⟩ := Nat.exists_eq_add_of_lt above
        rw [if_neg (by omega), if_neg (by omega), if_neg (by omega),
          show n + k + 1 - (n + 1) = k by omega, show n + k + 1 - n = k + 1 by omega,
          List.getD_cons_succ]
    · next hn => rw [if_pos (by omega)]

/-! ### The image -/

/-- Settles O45: the image is stored from address 0 over a memory that reads 0, and storing writes
memory only. -/
theorem loadedImageLiesAtAddressZero : Obligations.LoadedImageLiesAtAddressZero := by
  intro c image
  refine ⟨fun fits => ⟨_, if_pos fits, fun x => ?_,
    State.storeBytes_wf (Memory.wf_reset c) 0 image, ?_⟩, fun long => if_neg (not_le.2 long)⟩
  · exact State.storeBytes_read (Memory.wf_reset c) 0 image x.isLt
  · rw [State.storeBytes_eq]
    exact ⟨fun _ => rfl, ⟨rfl, rfl, rfl, rfl, rfl⟩, rfl, rfl, rfl⟩

/-! ### The instruction placed for the next cycle -/

@[simp] theorem State.running_run (s : State) : s.running.run = true := by
  unfold State.running
  split
  · assumption
  · rfl

@[simp] theorem State.running_pc (s : State) : s.running.pc = s.pc := by
  unfold State.running
  split <;> rfl

@[simp] theorem State.running_mem (s : State) : s.running.mem = s.mem := by
  unfold State.running
  split <;> rfl

@[simp] theorem State.withFetchWord_run (s : State) (nbits w : Nat) :
    (s.withFetchWord nbits w).run = true := by simp [State.withFetchWord]

@[simp] theorem State.withFetchWord_pc (s : State) (nbits w : Nat) :
    (s.withFetchWord nbits w).pc = s.pc := by simp [State.withFetchWord]

/-- There are as many bytes from an address as are asked for, where memory reaches that far. -/
theorem State.bytesFrom_length (s : State) {n count : Nat} (h : n + count ≤ memSize) :
    (s.bytesFrom n count).length = count := by
  induction count generalizing n with
  | zero => rfl
  | succ count ih =>
    have inMemory : n < memSize := by omega
    rw [State.bytesFrom_succ s count (Nat.le_of_lt_succ inMemory), List.length_cons, ih (by omega)]

/-- Bytes stored where memory has room for them are read back. -/
theorem State.bytesFrom_storeBytes {s : State} (hwf : s.mem.wf = true) {n : Nat} {bytes : List Byte}
    (room : n + bytes.length ≤ memSize) :
    (s.storeBytes n bytes).bytesFrom n bytes.length = bytes := by
  have len := (s.storeBytes n bytes).bytesFrom_length room
  refine List.ext_getElem len fun k _ hk => ?_
  have inMemory : n + k < memSize := by omega
  rw [List.getElem_eq_iff, State.bytesFrom_getElem? _ hk (Nat.le_of_lt_succ inMemory),
    State.storeBytes_read hwf n bytes inMemory, if_neg (by omega), Nat.add_sub_cancel_left,
    List.getD_eq_getElem _ _ hk]

/-- A fetch reads the word placed for it, where three bytes lie at `pc` (40_engine_cycle.md R82). -/
theorem State.withFetchWord_fetchBytes {s : State} (hwf : s.mem.wf = true) (hpc : s.pc.toNat ≤ 253)
    (nbits w : Nat) : (s.withFetchWord nbits w).fetchBytes = tableWordBytes nbits w := by
  have room : s.pc.toNat + (tableWordBytes nbits w).length ≤ memSize := Nat.add_le_add_right hpc 3
  rw [State.fetchBytes, State.withFetchWord_pc]
  exact State.bytesFrom_storeBytes (s.running_mem ▸ hwf) room

/-- The bytes of a table word that decodes begin with the instruction. -/
theorem exists_decode_of_decodeTableWord {nbits w : Nat} {i : Instr}
    (h : decodeTableWord nbits w = some i) :
    ∃ rest, decode (tableWordBytes nbits w) = .ok (i, rest) := by
  unfold decodeTableWord at h
  split at h
  · next rest hd => cases h; exact ⟨rest, hd⟩
  · cases h

/-- Settles O48: the engine is running, and the fetch reads the word placed. -/
theorem placedInstructionRunsNext : Obligations.PlacedInstructionRunsNext := by
  intro s nbits w i hwf hpc h
  obtain ⟨_, hd⟩ := exists_decode_of_decodeTableWord h
  have fetched : (s.withFetchWord nbits w).fetchInstr = .ok i := by
    rw [State.fetchInstr, State.withFetchWord_fetchBytes hwf hpc, hd]
  rw [step, if_pos (s.withFetchWord_run nbits w), fetched]

end Sys2Proof.Machine
